-- ==== Sys2Proof/Word.lean ====
section
/-! DEFINITION. The word types of the machine: bytes, and the 9-bit values of `pc`, `sp` and `fault_info`. -/

namespace Sys2Proof

/-- A register, a memory cell, an instruction byte: an unsigned 8-bit value (R5, R10, R22). -/
abbrev Byte := BitVec 8

/-- The program counter, the stack pointer and `fault_info`: 9 bits (R4, R14, R17, R20). -/
abbrev Ptr := BitVec 9

/-- The index of one of the eight general registers (R10). -/
abbrev RegIndex := Fin 8

end Sys2Proof
end

