-- ==== Sys2Proof/Syntax.lean ====
section
/-! DEFINITION. The instructions: one constructor per row of spec/opcode_table.json. -/

namespace Sys2Proof

/-- The nine instructions of R56. An operand is a WHOLE byte, taken as it stands (R59): a register operand above 7
is part of the instruction, and executing it raises RegisterError (R61, R73), so it is not lost at decode. -/
inductive Instr where
  /-- HALT (R76). -/
  | halt
  /-- LOAD_IMMEDIATE a, b: register `a`, immediate `b` (R91). -/
  | loadImmediate (a b : Byte)
  /-- PRINT_REGISTER a (R92). -/
  | printRegister (a : Byte)
  /-- MULTIPLY a, b (R102). -/
  | multiply (a b : Byte)
  /-- ADD a, b (R103). -/
  | add (a b : Byte)
  /-- PUSH a (R111). -/
  | push (a : Byte)
  /-- POP a (R112). -/
  | pop (a : Byte)
  /-- CALL a: register `a` holds the target (R121). -/
  | call (a : Byte)
  /-- RETURN (R123). -/
  | ret
deriving DecidableEq, Repr

end Sys2Proof
end

