-- ==== Sys2Proof/Decode.lean ====
section
/-! DEFINITION. The opcode table (R56), the decoder and, after it, the encoder. -/

namespace Sys2Proof

/-- The nine entries of the opcode table by name (R56). -/
inductive Opcode where
  | halt | loadImmediate | printRegister | multiply | add | push | pop | call | ret
deriving DecidableEq, Repr

/-- The four operand shapes (R52 to R55): none; one register; two registers; a register and an immediate. -/
inductive Format where
  | z | r | rr | ri
deriving DecidableEq, Repr

/-- The columns of the opcode table that carry behaviour (R56). -/
structure OpcodeRow where
  code : Byte
  format : Format
  pcDelta : Nat
  continues : Bool
deriving DecidableEq, Repr

/-- Why bytes do not decode. -/
inductive DecodeReject where
  /-- The opcode byte is none of the nine (R60). -/
  | unknownOpcode (op : Byte)
  /-- A linear reader ran out of bytes before the instruction's end (R57). The machine never meets this: it always
  has three bytes or an AddressError (R71). -/
  | truncated
deriving DecidableEq, Repr

/-- The opcode table, row by row as R56 prints it. -/
def Opcode.row : Opcode → OpcodeRow
  | .halt          => ⟨0b00000001, .z,  0, false⟩
  | .loadImmediate => ⟨0b10000010, .ri, 3, true⟩
  | .printRegister => ⟨0b01000111, .r,  2, true⟩
  | .multiply      => ⟨0b10100010, .rr, 3, true⟩
  | .add           => ⟨0b10100000, .rr, 3, true⟩
  | .push          => ⟨0b01000101, .r,  2, true⟩
  | .pop           => ⟨0b01000110, .r,  2, true⟩
  | .call          => ⟨0b01010000, .r,  0, true⟩
  | .ret           => ⟨0b00010001, .z,  0, true⟩

/-- All nine names, in the table's order. -/
def Opcode.all : List Opcode :=
  [.halt, .loadImmediate, .printRegister, .multiply, .add, .push, .pop, .call, .ret]

/-- Number of operand bytes of a format (R52 to R55). -/
def Format.operandCount : Format → Nat
  | .z => 0
  | .r => 1
  | .rr => 2
  | .ri => 2

/-- Length in bytes: 1 plus the number of operands used (R56, R57). -/
def Opcode.length (o : Opcode) : Nat := 1 + o.row.format.operandCount

/-- The look-up of R72: all eight bits of the opcode byte are compared; nothing else plays a part. -/
def lookup (op : Byte) : Option Opcode := Opcode.all.find? fun o => o.row.code == op

/-- The instruction an opcode makes of the two operand bytes; unused ones are ignored (R51). -/
def Opcode.assemble (o : Opcode) (a b : Byte) : Instr :=
  match o with
  | .halt => .halt
  | .loadImmediate => .loadImmediate a b
  | .printRegister => .printRegister a
  | .multiply => .multiply a b
  | .add => .add a b
  | .push => .push a
  | .pop => .pop a
  | .call => .call a
  | .ret => .ret

/-- Decoding of the three bytes a step has fetched (R72): it depends on the bytes alone (R62), and only an opcode
byte outside the table is rejected. -/
def decode (op a b : Byte) : Except DecodeReject Instr :=
  match lookup op with
  | some o => .ok (o.assemble a b)
  | none => .error (.unknownOpcode op)

/-- Decoding of one instruction from the front of a list of bytes, with the rest of the list: what a reader of
memory in address order does (R57). It takes the instruction's own bytes only. -/
def decodeBytes : List Byte → Except DecodeReject (Instr × List Byte)
  | [] => .error .truncated
  | op :: rest =>
    match lookup op with
    | none => .error (.unknownOpcode op)
    | some o =>
      match o.row.format.operandCount, rest with
      | 0, rest => .ok (o.assemble 0 0, rest)
      | 1, a :: rest => .ok (o.assemble a 0, rest)
      | 2, a :: b :: rest => .ok (o.assemble a b, rest)
      | _, _ => .error .truncated

/-- Byte `k` of an instruction given as a number whose bits 7..0 are the first byte (R6, R31). -/
def wordByte (w k : Nat) : Byte := BitVec.ofNat 8 (w / 2 ^ (8 * k))

/-- The three bytes of a table word: the bits above `nbits` are 0. -/
def wordBytes (nbits w : Nat) : Byte × Byte × Byte :=
  let v := w % 2 ^ nbits
  (wordByte v 0, wordByte v 1, wordByte v 2)

/-- The instruction the decoder reads from a table word: first byte in bits 7..0, second in 15..8, third in 23..16,
every bit above `nbits` 0. -/
def decodeTableWord (nbits w : Nat) : Option Instr :=
  match decode (wordBytes nbits w).1 (wordBytes nbits w).2.1 (wordBytes nbits w).2.2 with
  | .ok i => some i
  | .error _ => none

/-- The opcode of an instruction (R56). -/
def Instr.opcode : Instr → Opcode
  | .halt => .halt
  | .loadImmediate _ _ => .loadImmediate
  | .printRegister _ => .printRegister
  | .multiply _ _ => .multiply
  | .add _ _ => .add
  | .push _ => .push
  | .pop _ => .pop
  | .call _ => .call
  | .ret => .ret

/-- The operand bytes, operand_a first (R50, R63). -/
def Instr.operands : Instr → List Byte
  | .halt => []
  | .loadImmediate a b => [a, b]
  | .printRegister a => [a]
  | .multiply a b => [a, b]
  | .add a b => [a, b]
  | .push a => [a]
  | .pop a => [a]
  | .call a => [a]
  | .ret => []

/-- The bytes of an instruction in ascending address order: the opcode byte, then the operands used (R50). -/
def encode (i : Instr) : List Byte := i.opcode.row.code :: i.operands

end Sys2Proof
end

