-- ==== Sys2Proof/Config.lean ====
section
/-! DEFINITION. The constants the spec fixes (R4), and the two values it leaves open. -/

namespace Sys2Proof.Config

/-- `MEM_SIZE` (R4): the number of memory cells. -/
def memSize : Nat := 256

/-- `PC_RESET` (R4, R14). -/
def pcReset : Ptr := 0

/-- `SP_RESET` (R4, R17): one past the last address, an empty full-descending stack. -/
def spReset : Ptr := 256

/-- `fault_info` of UnsupportedOperationError, which R130 calls "not defined": a free value, of which
nothing can be proved. No step raises that error (R101, R134). Log entry 3. -/
opaque unsupportedInfo : Ptr

/-- `LOADER_STRICT` (R4, D25): whether the Loader reports a malformed line of the program text or skips it.
The spec leaves it OPEN. Log entry 9. -/
opaque loaderStrict : Bool

end Sys2Proof.Config
end

