-- ==== Sys2Proof/Machine/State.lean ====
section
/-! DEFINITION. The state of the machine (10_state.md), its reset value, and why a run or a load can stop. -/

namespace Sys2Proof.Machine

/-- The state of the instruction cycle (R19). HALTED and FAULTED are terminal. -/
inductive RunState where
  | running | halted | faulted
deriving DecidableEq, Repr

/-- The error kinds of the block (R130). Raising one is no `Fault` of the model: the spec describes what it does to
the state (R139), and the machine goes to that state. -/
inductive ErrorKind where
  /-- AddressError: a memory access outside 0 to 255, with the address (R132). -/
  | address (addr : Int)
  /-- RegisterError: a used register operand above 7, with the operand byte (R133). -/
  | register (index : Byte)
  /-- UnsupportedOperationError of the ALU: listed by the spec, raised by nothing (R101, R134). -/
  | unsupportedOperation
  /-- UnknownOpcodeError, with the opcode byte (R131). -/
  | unknownOpcode (op : Byte)
deriving DecidableEq, Repr

/-- Why the model stops with a fault. -/
inductive Fault where
  /-- LoadError (R135): raised by the Loader (`loadProgram`) when the program source cannot be read, or, in strict
  mode, when a line is malformed (D25). The machine is never started. No step and no instruction raises it. Safe. -/
  | loadError
deriving DecidableEq, Repr

/-- Why the model refuses. -/
inductive Refusal where
  /-- An instruction without a meaning: no arm of `exec` answers it. Safe. -/
  | notModelled (mnemonic : String)
  /-- An image longer than 256 bytes (R164, D20, U-14): raised by `launch`. The spec takes `len(image) <= 256` as a
  launch premise and gives no meaning beyond it. No step raises it. Safe. -/
  | imageTooLong
deriving DecidableEq, Repr

/-- The contents of memory: the cells that do not hold 0, by rising address. A cell that is not listed reads as 0,
the reset value of every cell (R22). -/
abbrev Memory := List Host.Cell

/-- The whole state, the tuple of 10_state.md section 1; nothing else is state (R24, R25). -/
@[ext]
structure State where
  /-- The general registers (R10). -/
  x : Vector Byte 8
  /-- The program counter (R14). -/
  pc : Ptr
  /-- The stack pointer (R17). -/
  sp : Ptr
  /-- The 256 memory cells (R22). -/
  mem : Memory
  /-- RUNNING, HALTED or FAULTED (R19). -/
  run : RunState
  /-- `fault_code` (R20). -/
  faultCode : BitVec 3
  /-- `fault_info` (R20). -/
  faultInfo : Ptr
  /-- The bytes emitted since reset, oldest first (R21). -/
  out : List Byte
deriving DecidableEq, Repr

/-- The state right after reset (R161): every value is the spec's. -/
def State.reset : State where
  x := Vector.replicate 8 0
  pc := Config.pcReset
  sp := Config.spReset
  mem := []
  run := .running
  faultCode := 0
  faultInfo := 0
  out := []

end Sys2Proof.Machine
end

