-- ==== Sys2Proof/Machine/Ops.lean ====
section
/-! DEFINITION. The named operations over memory, registers, output and the run state, and raising an error. -/

namespace Sys2Proof.Machine

/-! ### Memory as a canonical list of cells -/

/-- What a cell that is not listed reads as: 0, the reset contents of memory (R22). -/
def unlisted : Byte := 0

/-- The byte at address `k`. -/
def Memory.read (k : Nat) : Memory → Byte
  | [] => unlisted
  | (a, v) :: m => if a = k then v else Memory.read k m

/-- Without the cell `k`. -/
def Memory.erase (k : Nat) (m : Memory) : Memory := m.filter fun c => c.1 ≠ k

/-- With the cell `k` put before the first higher address. -/
def Memory.insert (k : Nat) (v : Byte) : Memory → Memory
  | [] => [(k, v)]
  | c :: m => if k < c.1 then (k, v) :: c :: m else c :: Memory.insert k v m

/-- Cell `k` becomes `v` and no other cell changes (R30); writing what an unlisted cell reads as removes the entry. -/
def Memory.write (k : Nat) (v : Byte) (m : Memory) : Memory :=
  if v = unlisted then Memory.erase k m else Memory.insert k v (Memory.erase k m)

/-- From address `lo` on: addresses strictly rising and below 256, no entry that equals an unlisted cell. -/
def Memory.wfFrom (lo : Nat) : Memory → Bool
  | [] => true
  | (a, v) :: m => lo ≤ a && a < Config.memSize && v ≠ unlisted && Memory.wfFrom (a + 1) m

/-- The canonical form of memory. -/
def Memory.wf (m : Memory) : Bool := Memory.wfFrom 0 m

/-! ### The memory contract -/

/-- The range check of the memory port (R30): an address is a mathematical integer. -/
abbrev validAddress (addr : Int) : Prop := 0 ≤ addr ∧ addr ≤ 255

/-- `MemRead(addr, 1)` (R7, R30). It has no side effect (R33). -/
def memRead (addr : Int) (s : State) : Except ErrorKind Byte :=
  if validAddress addr then .ok (s.mem.read addr.toNat) else .error (.address addr)

/-- `MemWrite(addr, 1, v)` (R7, R30). -/
def memWrite (addr : Int) (v : Byte) (s : State) : Except ErrorKind State :=
  if validAddress addr then .ok { s with mem := s.mem.write addr.toNat v } else .error (.address addr)

/-! ### Registers, output -/

/-- `x[i]` (R7, R12). -/
def State.reg (i : RegIndex) (s : State) : Byte := s.x[i]

/-- `x[i] <- v` (R7, R12). -/
def State.setReg (i : RegIndex) (v : Byte) (s : State) : State := { s with x := s.x.set i v }

/-- `Emit(v)` (R7, R21): the sink always accepts (R27). -/
def State.emit (v : Byte) (s : State) : State := { s with out := s.out ++ [v] }

/-! ### The stack (R110): pre-decrement on a write, post-increment on a read -/

/-- The address a push writes: the new `sp`, `sp - 1` as an integer (R110, R35). -/
def State.pushAddress (s : State) : Int := (s.sp.toNat : Int) - 1

/-- The address a pop reads: the old `sp` (R110, R35). -/
def State.popAddress (s : State) : Int := s.sp.toNat

/-- The PUSH mechanism, shared by PUSH and CALL (R111, R121). With `sp = 0` the write at -1 raises AddressError. -/
def pushByte (v : Byte) (s : State) : Except ErrorKind State := do
  let t ← memWrite s.pushAddress v s
  return { t with sp := BitVec.ofInt 9 s.pushAddress }

/-- The POP mechanism into register `i`, shared by POP and RETURN (R112, R123). With `sp = 256` the read at 256
raises AddressError. The popped cell keeps its value. -/
def popInto (i : RegIndex) (s : State) : Except ErrorKind State := do
  let v ← memRead s.popAddress s
  return { s.setReg i v with sp := BitVec.ofNat 9 (s.sp.toNat + 1) }

/-! ### Program counter -/

/-- `zext_9` of a byte (R7). -/
def zext9 (v : Byte) : Ptr := v.setWidth 9

/-- `pc + d` on integers (R105), as a 9-bit value; it fits whenever the fetch has succeeded (R16). -/
def State.pcPlus (d : Nat) (s : State) : Ptr := BitVec.ofNat 9 (s.pc.toNat + d)

/-- The return address `pc + 2` as a byte; it fits because the fetch has succeeded (R121 corner case 1). -/
def State.returnAddress (s : State) : Byte := BitVec.ofNat 8 (s.pc.toNat + 2)

/-- `pc <- t`. -/
def State.jump (t : Ptr) (s : State) : State := { s with pc := t }

/-! ### Raising an error: the machine's one exception entry -/

/-- `fault_code` of an error kind (R130). -/
def ErrorKind.code : ErrorKind → BitVec 3
  | .address _ => 1
  | .register _ => 2
  | .unsupportedOperation => 3
  | .unknownOpcode _ => 4

/-- `fault_info` of an error kind (R130 to R133): the address modulo 512, the operand byte, the opcode byte; for the
unreachable UnsupportedOperationError a free value. -/
def ErrorKind.info : ErrorKind → Ptr
  | .address addr => BitVec.ofInt 9 addr
  | .register i => zext9 i
  | .unsupportedOperation => Config.unsupportedInfo
  | .unknownOpcode op => zext9 op

/-- `raise E(info)` (R139, R140): exactly these three components change, and the machine has no way back but
reset (R142). -/
def State.raise (e : ErrorKind) (s : State) : State :=
  { s with run := .faulted, faultCode := e.code, faultInfo := e.info }

/-! ### Reset and the loader port: what the host does outside a run -/

/-- Asserting reset, in any state: every component takes its reset value (R160). -/
def State.assertReset (_ : State) : State := State.reset

/-- The loader port: the host writes one cell between reset and launch (R27, R167). -/
def State.loaderWrite (k : Fin 256) (v : Byte) (s : State) : State := { s with mem := s.mem.write k v }

end Sys2Proof.Machine
end

