-- ==== Sys2Proof/Machine/Flags.lean ====
section
/-! DEFINITION. The machine has NO status flag, condition code or predicate (R23): no instruction computes one. The
one flag of the spec is the handler's `continue_flag`, a signal inside a step; this file is what the dispatcher does
with it and with `pc_delta` (R70 actions 3 to 5, R74), and how an instruction's outcome is settled. -/

namespace Sys2Proof.Machine

/-- Actions 4 and 5 of the step (R70): where `continue_flag` is false the machine is HALTED and `pc` is not advanced;
otherwise `pc_delta` is added. Both are the opcode table's columns (R56). -/
def finish (o : Opcode) (t : State) : State :=
  if o.row.continues then { t with pc := t.pcPlus o.row.pcDelta } else { t with run := .halted }

/-- Settles an instruction executed in `s`: either its handler ran to the end and the dispatcher finishes the step,
or it raised, and every write of the step is discarded (R8, R75, R140). -/
def dispatch (o : Opcode) (s : State) (handler : Except ErrorKind State) :
    Host.Outcome State Fault Refusal :=
  match handler with
  | .ok t => .next (finish o t)
  | .error e => .next (s.raise e)

end Sys2Proof.Machine
end

