-- ==== Sys2Proof/Machine/Operands.lean ====
section
/-! DEFINITION. The operand forms: a register-index byte (R59, R61) and an immediate byte (R59). -/

namespace Sys2Proof.Machine

/-- The link register of CALL and RETURN (R13). -/
def linkReg : RegIndex := 2

/-- The operand check of R73: the whole byte is compared with 7; above it, RegisterError with that byte (R133). -/
def registerOperand (a : Byte) : Except ErrorKind RegIndex :=
  if h : a.toNat < 8 then .ok ⟨a.toNat, h⟩ else .error (.register a)

/-- The immediate operand is its byte, neither extended nor truncated (R59, R91). -/
def immediateOperand (b : Byte) : Byte := b

end Sys2Proof.Machine
end

