-- ==== Sys2Proof/Machine/Alu.lean ====
section
/-! DEFINITION. The arithmetic unit, MULTIPLY and ADD (42_alu.md). -/

namespace Sys2Proof.Machine

/-- The operation select: an enumeration of two values, the only ones the dispatcher produces (R101, D19). -/
inductive AluSelect where
  | add | multiply
deriving DecidableEq, Repr

/-- The full result on mathematical integers, which exists only inside the unit (R100). -/
def aluFull : AluSelect → Nat → Nat → Nat
  | .add, m, n => m + n
  | .multiply, m, n => m * n

/-- The result: the full result modulo 256 (R100, R104). -/
def aluResult (op : AluSelect) (u v : Byte) : Byte :=
  BitVec.ofNat 8 (aluFull op u.toNat v.toNat % 256)

/-- The unit reads both registers, computes, and writes the first (R28, R100). -/
def aluRun (op : AluSelect) (ra rb : RegIndex) (s : State) : State :=
  s.setReg ra (aluResult op (s.reg ra) (s.reg rb))

/-- MULTIPLY a, b (R102); operand `a` is checked before operand `b` (R73). -/
def execMultiply (a b : Byte) (s : State) : Host.Outcome State Fault Refusal :=
  dispatch .multiply s do
    let ra ← registerOperand a
    let rb ← registerOperand b
    return aluRun .multiply ra rb s

/-- ADD a, b (R103); operand `a` is checked before operand `b` (R73). -/
def execAdd (a b : Byte) (s : State) : Host.Outcome State Fault Refusal :=
  dispatch .add s do
    let ra ← registerOperand a
    let rb ← registerOperand b
    return aluRun .add ra rb s

end Sys2Proof.Machine
end

