-- ==== Sys2Proof/Machine/CallReturn.lean ====
section
/-! DEFINITION. CALL and RETURN (44_call_return.md). -/

namespace Sys2Proof.Machine

/-- CALL a (R121): the return address goes into register 2 and from there onto the stack; the target is read AFTER
register 2 was written, so CALL of register 2 falls through (R122). -/
def execCall (a : Byte) (s : State) : Host.Outcome State Fault Refusal :=
  dispatch .call s do
    let ra ← registerOperand a
    let linked := s.setReg linkReg s.returnAddress
    let t ← pushByte (linked.reg linkReg) linked
    return t.jump (zext9 (t.reg ra))

/-- RETURN (R123): the popped byte goes into register 2 and from there into `pc`. -/
def execRet (s : State) : Host.Outcome State Fault Refusal :=
  dispatch .ret s do
    let t ← popInto linkReg s
    return t.jump (zext9 (t.reg linkReg))

end Sys2Proof.Machine
end

