-- ==== Sys2Proof/Machine/Cycle.lean ====
section
/-! DEFINITION. HALT (40_cycle_and_halt.md). -/

namespace Sys2Proof.Machine

/-- HALT (R76): only `run` changes; `pc` stays at the HALT opcode (C1). -/
def execHalt (s : State) : Host.Outcome State Fault Refusal :=
  dispatch .halt s (.ok s)

end Sys2Proof.Machine
end

