-- ==== Sys2Proof/Machine/LoadPrint.lean ====
section
/-! DEFINITION. LOAD_IMMEDIATE and PRINT_REGISTER (41_load_print.md). -/

namespace Sys2Proof.Machine

/-- LOAD_IMMEDIATE a, b (R91). -/
def execLoadImmediate (a b : Byte) (s : State) : Host.Outcome State Fault Refusal :=
  dispatch .loadImmediate s do
    let ra ← registerOperand a
    return s.setReg ra (immediateOperand b)

/-- PRINT_REGISTER a (R92). -/
def execPrintRegister (a : Byte) (s : State) : Host.Outcome State Fault Refusal :=
  dispatch .printRegister s do
    let ra ← registerOperand a
    return s.emit (s.reg ra)

end Sys2Proof.Machine
end

