-- ==== Sys2Proof/Machine/Stack.lean ====
section
/-! DEFINITION. PUSH and POP (43_stack.md). -/

namespace Sys2Proof.Machine

/-- PUSH a (R111); the register check comes before the stack access (R138). -/
def execPush (a : Byte) (s : State) : Host.Outcome State Fault Refusal :=
  dispatch .push s do
    let ra ← registerOperand a
    pushByte (s.reg ra) s

/-- POP a (R112); the register check comes before the stack access (R138). -/
def execPop (a : Byte) (s : State) : Host.Outcome State Fault Refusal :=
  dispatch .pop s do
    let ra ← registerOperand a
    popInto ra s

end Sys2Proof.Machine
end

