-- ==== Sys2Proof/Machine/Fetch.lean ====
section
/-! DEFINITION. The front of a step: fetch (R71) and decode (R72); what a step is in a terminal state; and where the
host places an instruction word. -/

namespace Sys2Proof.Machine

/-- The three bytes of a fetch, read at `pc`, `pc + 1`, `pc + 2` in that order, for every opcode (R71, R35). -/
def fetch (s : State) : Except ErrorKind (Byte × Byte × Byte) := do
  let op ← memRead s.pc.toNat s
  let a ← memRead (s.pc.toNat + 1) s
  let b ← memRead (s.pc.toNat + 2) s
  return (op, a, b)

/-- The error a rejected look-up raises (R72, R131). The window always holds three bytes, so `truncated` does not
arise from `decode`; it would be the same report on the opcode byte. -/
def rejectError (op : Byte) : DecodeReject → ErrorKind
  | .unknownOpcode op' => .unknownOpcode op'
  | .truncated => .unknownOpcode op

/-- Fetch, then look-up: an AddressError of the fetch comes before an UnknownOpcodeError (R138). -/
def fetchInstr (s : State) : Except ErrorKind Instr := do
  let w ← fetch s
  match decode w.1 w.2.1 w.2.2 with
  | .ok i => return i
  | .error r => throw (rejectError w.1 r)

/-- In HALTED and FAULTED no step is taken and no component of the state changes (R19, R77, D22). -/
def terminalStep (s : State) : Host.Outcome State Fault Refusal := .next s

/-- Stores three bytes at `pc`, `pc + 1`, `pc + 2`. -/
def State.placeWindow (op a b : Byte) (s : State) : State :=
  { s with
    mem := ((s.mem.write s.pc.toNat op).write (s.pc.toNat + 1) a).write (s.pc.toNat + 2) b }

/-- A state from which the next step fetches: RUNNING, and `pc` no higher than 253 (R19, R71); changed only where it
is not one. -/
def State.readyToFetch (s : State) : State :=
  { s with run := .running, pc := if s.pc.toNat ≤ 253 then s.pc else 0 }

end Sys2Proof.Machine
end

