-- ==== Sys2Proof/Machine/Step.lean ====
section
/-! DEFINITION. One step of the instruction cycle (R70, R75). -/

namespace Sys2Proof.Machine

/-- `Step` (R75): a step is taken only while RUNNING (R19); fetch and look-up, which may raise; then the instruction. -/
def step (s : State) : Host.Outcome State Fault Refusal :=
  match s.run with
  | .running =>
    match fetchInstr s with
    | .ok i => exec i s
    | .error e => .next (s.raise e)
  | .halted => terminalStep s
  | .faulted => terminalStep s

/-- The state with a table word's three bytes at `pc`, where the next step fetches them (log entry 7). -/
def State.withFetchWord (s : State) (nbits w : Nat) : State :=
  s.readyToFetch.placeWindow (wordBytes nbits w).1 (wordBytes nbits w).2.1 (wordBytes nbits w).2.2

end Sys2Proof.Machine
end

