-- ==== Sys2Proof/Machine/Loader.lean ====
section
/-! DEFINITION. How a program comes into memory: the launch of an image (R164), and the Loader that makes an image of
program text (R64, R135). The Loader is outside the block (R3); its contract is modelled here. -/

namespace Sys2Proof.Machine

/-- The bytes of an image at addresses from `k` on, ascending (R164). -/
def writeImage (k : Nat) : List Byte → Memory → Memory
  | [], m => m
  | v :: vs, m => writeImage (k + 1) vs (m.write k v)

/-- The launch state of an image (R164, R166): reset, then the image at address 0. A longer image than memory has no
launch (D20, U-14). -/
def launch (image : List Byte) : Host.Outcome State Fault Refusal :=
  if image.length ≤ Config.memSize then
    .next { State.reset with mem := writeImage 0 image State.reset.mem }
  else .refused .imageTooLong

/-- What one line of program text gives. -/
inductive LineResult where
  /-- Blank, or only a comment. -/
  | skipped
  /-- A byte. -/
  | accepted (v : Byte)
  /-- Text that is no 8-character binary literal. -/
  | malformed
deriving DecidableEq, Repr

/-- White space, trimmed at both ends of a line (log entry 8). -/
def isBlank (c : Char) : Bool := c = ' ' || c = '\t' || c = '\r'

/-- The text of a line without its comment, which begins at `#` (R64), trimmed. -/
def lineText (line : List Char) : List Char :=
  (((line.takeWhile (· ≠ '#')).dropWhile isBlank).reverse.dropWhile isBlank).reverse

/-- The number a list of binary digits writes, most significant first (R5); none if one is no digit. -/
def binaryValue (acc : Nat) : List Char → Option Nat
  | [] => some acc
  | '0' :: cs => binaryValue (2 * acc) cs
  | '1' :: cs => binaryValue (2 * acc + 1) cs
  | _ :: _ => none

/-- One line: "one instruction byte per line, expressed as an 8-character binary literal" (R64). -/
def parseLine (line : List Char) : LineResult :=
  let text := lineText line
  if text = [] then .skipped
  else if text.length = 8 then
    match binaryValue 0 text with
    | some n => .accepted (BitVec.ofNat 8 n)
    | none => .malformed
  else .malformed

/-- The image of a program text, one byte per accepted line in file order (R64, R164). A malformed line is skipped, or,
in strict mode, makes the load fail (D25). -/
def parseImage (strict : Bool) : List (List Char) → Option (List Byte)
  | [] => some []
  | line :: rest =>
    match parseLine line with
    | .skipped => parseImage strict rest
    | .accepted v => (parseImage strict rest).map (v :: ·)
    | .malformed => if strict then none else parseImage strict rest

/-- The Loader and the launch, with its strictness given: a source that cannot be read is LoadError, and the machine
is not started (R135). -/
def loadProgramWith (strict : Bool) (source : Option (List (List Char))) : Host.Outcome State Fault Refusal :=
  match source.bind (parseImage strict) with
  | none => .fault .loadError
  | some image => launch image

/-- The Loader of this machine: its strictness is the open parameter LOADER_STRICT (R4, D25). -/
def loadProgram (source : Option (List (List Char))) : Host.Outcome State Fault Refusal :=
  loadProgramWith Config.loaderStrict source

end Sys2Proof.Machine
end

