-- ==== Sys2Proof/WellFormed.lean ====
section
/-! DEFINITION. When an instruction is legal: its used register operands are 0 to 7 (R53, R54, R55, R61). -/

namespace Sys2Proof

/-- A register-index operand is legal from 0 to 7; no bit of it is ignored (R59). -/
def legalRegister (a : Byte) : Bool := a.toNat ≤ 7

/-- The register-index operands used, in the order in which they are checked (R61, R73). The immediate of
LOAD_IMMEDIATE is none (R55), and HALT and RETURN have no operand (R52). -/
def Instr.registerOperands : Instr → List Byte
  | .halt => []
  | .loadImmediate a _ => [a]
  | .printRegister a => [a]
  | .multiply a b => [a, b]
  | .add a b => [a, b]
  | .push a => [a]
  | .pop a => [a]
  | .call a => [a]
  | .ret => []

/-- Every used register operand is legal. -/
def Instr.wellFormed (i : Instr) : Bool := i.registerOperands.all legalRegister

/-- The first used register operand that is not legal, the one RegisterError reports (R73, R133). -/
def Instr.firstIllegal (i : Instr) : Option Byte := i.registerOperands.find? fun a => !legalRegister a

end Sys2Proof
end

