-- ==== Sys2Proof/Safety.lean ====
section
/-! DEFINITION. What claims are stated with: the reachable-state invariants (R29, R130), a normal and a failed end of
a run (R77), the count of completed PRINT_REGISTER instructions (R29), and the shapes of a line of program text (R64). -/

namespace Sys2Proof.Machine

/-- A normal end of a run (R77). FAULTED is never one (D6, U-6). -/
def State.Final (s : State) : Prop := s.run = .halted

/-- An end of a run by a fault (R77, R139). -/
def State.Failed (s : State) : Prop := s.run = .faulted

/-- The fault record agrees with `run` (R20, R29), and holds one of the records of the table of R130: an
AddressError at 256 or -1, a RegisterError of a byte above 7, an UnknownOpcodeError of a byte outside the table. -/
def State.RecordOk (s : State) : Prop :=
  match s.run with
  | .faulted =>
    (s.faultCode = 1 ∧ (s.faultInfo = 0x100 ∨ s.faultInfo = 0x1FF)) ∨
    (s.faultCode = 2 ∧ 8 ≤ s.faultInfo.toNat ∧ s.faultInfo.toNat ≤ 255) ∨
    (s.faultCode = 4 ∧ s.faultInfo.toNat ≤ 255 ∧ lookup (BitVec.ofNat 8 s.faultInfo.toNat) = none)
  | .running => s.faultCode = 0 ∧ s.faultInfo = 0
  | .halted => s.faultCode = 0 ∧ s.faultInfo = 0

/-- The reachable-state invariants of R29 (R16 for `pc`, R18 for `sp`), and the canonical form of memory. -/
structure State.Inv (s : State) : Prop where
  pc_le : s.pc.toNat ≤ 256
  sp_le : s.sp.toNat ≤ 256
  mem_wf : s.mem.wf = true
  record : s.RecordOk

/-- The run from `s` never fails. -/
def State.NeverFails (s : State) : Prop :=
  ∀ k t, Host.Core.run core k s = .next t → ¬ t.Failed

/-- The next step completes a PRINT_REGISTER. -/
def completesPrint (s : State) : Bool :=
  match s.run, fetchInstr s with
  | .running, .ok (.printRegister a) => legalRegister a
  | _, _ => false

/-- How many PRINT_REGISTER instructions the next `k` steps complete (R29). -/
def printsIn : Nat → State → Nat
  | 0, _ => 0
  | k + 1, s =>
    (if completesPrint s then 1 else 0) +
      match step s with
      | .next t => printsIn k t
      | .fault _ => 0
      | .refused _ => 0

/-! ### The shapes of a line of program text -/

/-- The white space around the text of a line (log entry 8). -/
def blanks : List Char := [' ', '\t', '\r']

/-- The eight binary digits of a byte, most significant first: "an 8-character binary literal" (R64). -/
def binaryLiteral (v : Byte) : List Char :=
  (List.range 8).map fun k => if v.getMsbD k then '1' else '0'

/-- "an optional trailing comment begins with `#`" (R64): nothing, or text from a `#` on. -/
def IsComment (text : List Char) : Prop := text = [] ∨ text.head? = some '#'

/-- "blank lines and comment-only lines" (R64). -/
def IsEmptyLine (line : List Char) : Prop :=
  ∃ space comment, line = space ++ comment ∧ (∀ c ∈ space, c ∈ blanks) ∧ IsComment comment

/-- A line that holds the literal of `v`, white space around it, and perhaps a comment (R64, log entry 8). -/
def IsByteLine (line : List Char) (v : Byte) : Prop :=
  ∃ before after comment, line = before ++ binaryLiteral v ++ after ++ comment ∧
    (∀ c ∈ before ++ after, c ∈ blanks) ∧ IsComment comment

/-- The byte of an accepted line. -/
def LineResult.byte? : LineResult → Option Byte
  | .skipped => none
  | .accepted v => some v
  | .malformed => none

/-- "Each accepted line gives one byte", in file order (R64). -/
def acceptedBytes (lines : List (List Char)) : List Byte := lines.filterMap fun line => (parseLine line).byte?

end Sys2Proof.Machine
end

