-- ==== Sys2Proof/Certificates/Slice0/Obligations.lean ====
section
/-! DEFINITION. The statements for the provers. Register values, program counters and addresses are written out as the
rules of spec/ write them, on numbers where the rule is on numbers. -/

open Sys2Proof Sys2Proof.Machine

/-! ### Reset, load and launch -/

/-- R161: the reset value of every component, and the nine entries of the opcode table. -/
def Obligations.ResetGivesTheSpecifiedValues : Prop :=
  (∀ i : Fin 8, State.reset.x[i] = 0) ∧ State.reset.pc.toNat = 0 ∧ State.reset.sp.toNat = 256 ∧
  (∀ k, k ≤ 255 → State.reset.mem.read k = 0) ∧ State.reset.run = .running ∧
  State.reset.faultCode = 0 ∧ State.reset.faultInfo = 0 ∧ State.reset.out = [] ∧
  Opcode.all.map (fun o => o.row.code) = [0x01, 0x82, 0x47, 0xA2, 0xA0, 0x45, 0x46, 0x50, 0x11]

/-- R160: reset asserted in any state, terminal or not, gives the reset state. -/
def Obligations.AssertedResetLeavesNoTrace : Prop :=
  ∀ s : State, s.assertReset = State.reset

/-- R164: the launch state of an image of at most 256 bytes. -/
def Obligations.LaunchPlacesTheImageFromAddressZero : Prop :=
  ∀ image : List Byte, image.length ≤ 256 →
    ∃ t, launch image = .next t ∧ t = { State.reset with mem := t.mem } ∧
      (∀ k, k < image.length → some (t.mem.read k) = image[k]?) ∧
      (∀ k, image.length ≤ k → k ≤ 255 → t.mem.read k = 0)

/-- The model's choice, log entry 10: a longer image is refused, and no state is launched. -/
def Obligations.LongerImageIsRefused : Prop :=
  ∀ image : List Byte, 256 < image.length → launch image = .refused .imageTooLong

/-- R64, R135, D25; the line syntax beyond R64's words is the model's choice, log entry 8, and LOADER_STRICT is open, log
entry 9. A line is skipped exactly when it is blank or comment-only, gives a byte exactly when it holds that byte's eight
digits, and is malformed exactly when it is neither. The accepted bytes, in file order, are what is launched; a
malformed line is skipped, or makes a strict load end in LoadError, and so does a source that cannot be read. -/
def Obligations.LoaderReadsProgramText : Prop :=
  (∀ line, parseLine line = .skipped ↔ IsEmptyLine line) ∧
  (∀ line v, parseLine line = .accepted v ↔ IsByteLine line v) ∧
  (∀ line, parseLine line = .malformed ↔ ¬ IsEmptyLine line ∧ ∀ v, ¬ IsByteLine line v) ∧
  (∀ strict, parseImage strict [] = some []) ∧
  (∀ strict lines, strict = false ∨ (∀ line ∈ lines, parseLine line ≠ .malformed) →
    parseImage strict lines = some (acceptedBytes lines) ∧
    loadProgramWith strict (some lines) = launch (acceptedBytes lines)) ∧
  (∀ lines, (∃ line ∈ lines, parseLine line = .malformed) →
    parseImage true lines = none ∧ loadProgramWith true (some lines) = .fault .loadError) ∧
  (∀ strict, loadProgramWith strict none = .fault .loadError) ∧
  (∀ source, loadProgram source = loadProgramWith Config.loaderStrict source)

/-! ### The step -/

/-- No state and no instruction stops the model with a fault or a refusal. R75 says so of the step of a RUNNING
state. The rest is the model's: that raising an error is a next state (log entry 1), that a HALTED or FAULTED state
answers itself (log entry 2), and what exec does with `pc` above 253 or `sp` above 256 (log entries 4 and 5). -/
def Obligations.EveryStepAnswersANextState : Prop :=
  (∀ s, ∃ t, step s = .next t) ∧ (∀ i s, ∃ t, exec i s = .next t)

/-- R71: the fetch reads three bytes in order, for every opcode, exactly when `pc <= 253`; with `pc` 254, 255 or 256
the step raises AddressError(256), whatever bytes are in range. -/
def Obligations.FetchReadsThreeBytesOrRaises : Prop :=
  ∀ s : State, s.run = .running →
    (s.pc.toNat ≤ 253 → fetch s =
      .ok (s.mem.read s.pc.toNat, s.mem.read (s.pc.toNat + 1), s.mem.read (s.pc.toNat + 2))) ∧
    (254 ≤ s.pc.toNat → s.pc.toNat ≤ 256 →
      fetch s = .error (.address 256) ∧
      step s = .next { s with run := .faulted, faultCode := 1, faultInfo := 0x100 })

/-- A step runs the instruction its bytes decode to, with nothing added around it. -/
def Obligations.StepRunsTheDecodedInstruction : Prop :=
  ∀ (s : State) (i : Instr), s.run = .running → s.pc.toNat ≤ 253 →
    decode (s.mem.read s.pc.toNat) (s.mem.read (s.pc.toNat + 1)) (s.mem.read (s.pc.toNat + 2)) = .ok i →
    step s = exec i s

/-- R60, R72, R131: an opcode byte that is none of the nine raises UnknownOpcodeError with that byte, whatever the
operand bytes, and changes nothing else. -/
def Obligations.UnknownOpcodeRaises : Prop :=
  ∀ s : State, s.run = .running → s.pc.toNat ≤ 253 →
    s.mem.read s.pc.toNat ∉ ([0x01, 0x82, 0x47, 0xA2, 0xA0, 0x45, 0x46, 0x50, 0x11] : List Byte) →
    step s = .next { s with
      run := .faulted, faultCode := 4, faultInfo := BitVec.ofNat 9 (s.mem.read s.pc.toNat).toNat }

/-- R19, D22 and log entry 2: from a HALTED or FAULTED state no number of steps changes any component. -/
def Obligations.TerminalStatesNeverChange : Prop :=
  ∀ (s : State) (k : Nat), s.run ≠ .running → Host.Core.run core k s = .next s

/-- A state given an instruction word by the host's function runs that instruction next (log entry 7). -/
def Obligations.PlacedWordRunsNext : Prop :=
  ∀ (s : State) (nbits w : Nat) (i : Instr), decodeTableWord nbits w = some i →
    step (s.withFetchWord nbits w) = exec i (s.withFetchWord nbits w)

/-! ### What each instruction does -/

/-- R76: HALT changes `run` and nothing else; it is the only instruction that does not continue; it does not execute
at an address above 253. -/
def Obligations.HaltOnlyHalts : Prop :=
  (∀ s, exec .halt s = .next { s with run := .halted }) ∧
  (∀ o : Opcode, o.row.continues = false ↔ o = .halt) ∧
  (∀ s : State, s.run = .running → 254 ≤ s.pc.toNat → s.pc.toNat ≤ 256 →
    step s = .next { s with run := .faulted, faultCode := 1, faultInfo := 0x100 })

/-- R91: LOAD_IMMEDIATE. -/
def Obligations.LoadImmediateWritesItsByte : Prop :=
  ∀ (a b : Byte) (s : State), s.pc.toNat ≤ 253 →
    (∀ h : a.toNat < 8, exec (.loadImmediate a b) s =
      .next { s with x := s.x.set a.toNat b h, pc := BitVec.ofNat 9 (s.pc.toNat + 3) }) ∧
    (7 < a.toNat → exec (.loadImmediate a b) s =
      .next { s with run := .faulted, faultCode := 2, faultInfo := BitVec.ofNat 9 a.toNat })

/-- R92: PRINT_REGISTER. -/
def Obligations.PrintRegisterEmitsOneByte : Prop :=
  ∀ (a : Byte) (s : State), s.pc.toNat ≤ 253 →
    (∀ h : a.toNat < 8, exec (.printRegister a) s =
      .next { s with out := s.out ++ [s.x[a.toNat]], pc := BitVec.ofNat 9 (s.pc.toNat + 2) }) ∧
    (7 < a.toNat → exec (.printRegister a) s =
      .next { s with run := .faulted, faultCode := 2, faultInfo := BitVec.ofNat 9 a.toNat })

/-- R102: MULTIPLY, both operands read before the write, operand `a` checked before operand `b`. -/
def Obligations.MultiplyWritesTheProductModulo256 : Prop :=
  ∀ (a b : Byte) (s : State), s.pc.toNat ≤ 253 →
    (∀ (ha : a.toNat < 8) (hb : b.toNat < 8), exec (.multiply a b) s =
      .next { s with
        x := s.x.set a.toNat (BitVec.ofNat 8 ((s.x[a.toNat].toNat * s.x[b.toNat].toNat) % 256)) ha
        pc := BitVec.ofNat 9 (s.pc.toNat + 3) }) ∧
    (7 < a.toNat → exec (.multiply a b) s =
      .next { s with run := .faulted, faultCode := 2, faultInfo := BitVec.ofNat 9 a.toNat }) ∧
    (a.toNat ≤ 7 → 7 < b.toNat → exec (.multiply a b) s =
      .next { s with run := .faulted, faultCode := 2, faultInfo := BitVec.ofNat 9 b.toNat })

/-- R103: ADD, both operands read before the write, operand `a` checked before operand `b`. -/
def Obligations.AddWritesTheSumModulo256 : Prop :=
  ∀ (a b : Byte) (s : State), s.pc.toNat ≤ 253 →
    (∀ (ha : a.toNat < 8) (hb : b.toNat < 8), exec (.add a b) s =
      .next { s with
        x := s.x.set a.toNat (BitVec.ofNat 8 ((s.x[a.toNat].toNat + s.x[b.toNat].toNat) % 256)) ha
        pc := BitVec.ofNat 9 (s.pc.toNat + 3) }) ∧
    (7 < a.toNat → exec (.add a b) s =
      .next { s with run := .faulted, faultCode := 2, faultInfo := BitVec.ofNat 9 a.toNat }) ∧
    (a.toNat ≤ 7 → 7 < b.toNat → exec (.add a b) s =
      .next { s with run := .faulted, faultCode := 2, faultInfo := BitVec.ofNat 9 b.toNat })

/-- R111: PUSH. With a legal operand and room on the stack the byte lands at the new `sp` and no other cell changes;
on a full stack AddressError(-1); an illegal operand is reported first. -/
def Obligations.PushStoresAtTheNewStackPointer : Prop :=
  ∀ (a : Byte) (s : State), s.pc.toNat ≤ 253 → s.sp.toNat ≤ 256 →
    (∀ h : a.toNat < 8, 1 ≤ s.sp.toNat → ∃ t, exec (.push a) s = .next t ∧
      t = { s with
        sp := BitVec.ofNat 9 (s.sp.toNat - 1), pc := BitVec.ofNat 9 (s.pc.toNat + 2), mem := t.mem } ∧
      t.mem.read (s.sp.toNat - 1) = s.x[a.toNat] ∧
      ∀ k, k ≠ s.sp.toNat - 1 → t.mem.read k = s.mem.read k) ∧
    (a.toNat ≤ 7 → s.sp.toNat = 0 → exec (.push a) s =
      .next { s with run := .faulted, faultCode := 1, faultInfo := 0x1FF }) ∧
    (7 < a.toNat → exec (.push a) s =
      .next { s with run := .faulted, faultCode := 2, faultInfo := BitVec.ofNat 9 a.toNat })

/-- R112: POP. Memory is not written; from the empty stack AddressError(256); an illegal operand is reported first. -/
def Obligations.PopReadsAtTheOldStackPointer : Prop :=
  ∀ (a : Byte) (s : State), s.pc.toNat ≤ 253 → s.sp.toNat ≤ 256 →
    (∀ h : a.toNat < 8, s.sp.toNat ≤ 255 → exec (.pop a) s =
      .next { s with
        x := s.x.set a.toNat (s.mem.read s.sp.toNat) h
        sp := BitVec.ofNat 9 (s.sp.toNat + 1), pc := BitVec.ofNat 9 (s.pc.toNat + 2) }) ∧
    (a.toNat ≤ 7 → s.sp.toNat = 256 → exec (.pop a) s =
      .next { s with run := .faulted, faultCode := 1, faultInfo := 0x100 }) ∧
    (7 < a.toNat → exec (.pop a) s =
      .next { s with run := .faulted, faultCode := 2, faultInfo := BitVec.ofNat 9 a.toNat })

/-- R121, R122: CALL. The return address is in register 2 and on the stack; the target is the named register's value
after register 2 was written, so CALL of register 2 continues at `pc + 2`; a refused push leaves register 2 as it
was. -/
def Obligations.CallLinksPushesAndJumps : Prop :=
  ∀ (a : Byte) (s : State), s.pc.toNat ≤ 253 → s.sp.toNat ≤ 256 →
    (∀ h : a.toNat < 8, 1 ≤ s.sp.toNat → ∃ t, exec (.call a) s = .next t ∧
      t = { s with
        x := s.x.set 2 (BitVec.ofNat 8 (s.pc.toNat + 2)), sp := BitVec.ofNat 9 (s.sp.toNat - 1)
        pc := BitVec.ofNat 9 (if a.toNat = 2 then s.pc.toNat + 2 else s.x[a.toNat].toNat), mem := t.mem } ∧
      t.x[2].toNat = s.pc.toNat + 2 ∧ (t.mem.read (s.sp.toNat - 1)).toNat = s.pc.toNat + 2 ∧
      ∀ k, k ≠ s.sp.toNat - 1 → t.mem.read k = s.mem.read k) ∧
    (a.toNat ≤ 7 → s.sp.toNat = 0 → exec (.call a) s =
      .next { s with run := .faulted, faultCode := 1, faultInfo := 0x1FF }) ∧
    (7 < a.toNat → exec (.call a) s =
      .next { s with run := .faulted, faultCode := 2, faultInfo := BitVec.ofNat 9 a.toNat })

/-- R123: RETURN. The popped byte is the new `pc` and the new register 2; from the empty stack AddressError(256). -/
def Obligations.ReturnPopsTheProgramCounter : Prop :=
  ∀ s : State, s.sp.toNat ≤ 256 →
    (s.sp.toNat ≤ 255 → exec .ret s =
      .next { s with
        x := s.x.set 2 (s.mem.read s.sp.toNat), sp := BitVec.ofNat 9 (s.sp.toNat + 1)
        pc := BitVec.ofNat 9 (s.mem.read s.sp.toNat).toNat }) ∧
    (s.sp.toNat = 256 → exec .ret s =
      .next { s with run := .faulted, faultCode := 1, faultInfo := 0x100 })

/-! ### Frames: what an instruction leaves unchanged, whether it completes or raises -/

/-- LOAD_IMMEDIATE, MULTIPLY and ADD: every register but the destination, `sp`, `out` and every cell of memory; and,
where the instruction is legal, `run` and the fault record. -/
def Obligations.FrameOfRegisterWriters : Prop :=
  ∀ (i : Instr) (a b : Byte) (s t : State), i = .loadImmediate a b ∨ i = .multiply a b ∨ i = .add a b →
    exec i s = .next t →
    (∀ r : Fin 8, r.val ≠ a.toNat → t.x[r] = s.x[r]) ∧ t.sp = s.sp ∧ t.out = s.out ∧
    (∀ k, t.mem.read k = s.mem.read k) ∧
    (i.wellFormed = true → t.run = s.run ∧ t.faultCode = s.faultCode ∧ t.faultInfo = s.faultInfo)

/-- HALT and PRINT_REGISTER: every register, `sp` and every cell of memory; HALT leaves `pc` and `out` too, and both
leave the fault record where the instruction is legal. -/
def Obligations.FrameOfHaltAndPrint : Prop :=
  ∀ (i : Instr) (a : Byte) (s t : State), i = .halt ∨ i = .printRegister a → exec i s = .next t →
    t.x = s.x ∧ t.sp = s.sp ∧ (∀ k, t.mem.read k = s.mem.read k) ∧
    (i = .halt → t.pc = s.pc ∧ t.out = s.out) ∧
    (i.wellFormed = true → t.faultCode = s.faultCode ∧ t.faultInfo = s.faultInfo ∧ (i ≠ .halt → t.run = s.run))

/-- PUSH and CALL: every cell but the one at the pushed address, `out`, every register (but register 2 for CALL), and
the fault record where the push is not refused. `sp` may change. -/
def Obligations.FrameOfPushAndCall : Prop :=
  ∀ (i : Instr) (a : Byte) (s t : State), i = .push a ∨ i = .call a → exec i s = .next t →
    (∀ k : Nat, (k : Int) ≠ s.pushAddress → t.mem.read k = s.mem.read k) ∧
    (∀ r : Fin 8, (i = .call a → r ≠ 2) → t.x[r] = s.x[r]) ∧ t.out = s.out ∧
    (i.wellFormed = true → validAddress s.pushAddress →
      t.run = s.run ∧ t.faultCode = s.faultCode ∧ t.faultInfo = s.faultInfo)

/-- POP and RETURN: every cell of memory, `out`, every register but the destination (register 2 for RETURN), and the
fault record where the pop is not refused. `sp` may change. -/
def Obligations.FrameOfPopAndReturn : Prop :=
  ∀ (i : Instr) (a : Byte) (s t : State), i = .pop a ∨ (i = .ret ∧ a = 2) → exec i s = .next t →
    (∀ k, t.mem.read k = s.mem.read k) ∧ (∀ r : Fin 8, r.val ≠ a.toNat → t.x[r] = s.x[r]) ∧ t.out = s.out ∧
    (i.wellFormed = true → validAddress s.popAddress →
      t.run = s.run ∧ t.faultCode = s.faultCode ∧ t.faultInfo = s.faultInfo)

/-! ### Errors -/

/-- R133: RegisterError is raised exactly where a used register operand is above 7, with the first such byte, before
any stack access; HALT and RETURN never raise it. -/
def Obligations.RegisterErrorExactlyForIllegalOperands : Prop :=
  (∀ (i : Instr) (c : Byte) (s : State), i.firstIllegal = some c →
    7 < c.toNat ∧ exec i s =
      .next { s with run := .faulted, faultCode := 2, faultInfo := BitVec.ofNat 9 c.toNat }) ∧
  (∀ (i : Instr) (s t : State), i.firstIllegal = none → exec i s = .next t → s.faultCode ≠ 2 → t.faultCode ≠ 2) ∧
  Instr.halt.firstIllegal = none ∧ Instr.ret.firstIllegal = none

/-- R138, R132: the one error a step raises, by priority: the fetch, the opcode, the register operands, the stack
access (a push at `sp = 0`, a pop at `sp = 256`); and where none applies, none is raised. -/
def Obligations.StepRaisesTheFirstApplicableError : Prop :=
  ∀ s : State, s.run = .running → s.pc.toNat ≤ 256 → s.sp.toNat ≤ 256 →
    ∃ t, step s = .next t ∧
      if 254 ≤ s.pc.toNat then
        t = { s with run := .faulted, faultCode := 1, faultInfo := 0x100 }
      else
        match decode (s.mem.read s.pc.toNat) (s.mem.read (s.pc.toNat + 1)) (s.mem.read (s.pc.toNat + 2)) with
        | .error _ =>
          t = { s with
            run := .faulted, faultCode := 4, faultInfo := BitVec.ofNat 9 (s.mem.read s.pc.toNat).toNat }
        | .ok i =>
          match i.firstIllegal with
          | some c => t = { s with run := .faulted, faultCode := 2, faultInfo := BitVec.ofNat 9 c.toNat }
          | none =>
            if (i.opcode = .push ∨ i.opcode = .call) ∧ s.sp.toNat = 0 then
              t = { s with run := .faulted, faultCode := 1, faultInfo := 0x1FF }
            else if (i.opcode = .pop ∨ i.opcode = .ret) ∧ s.sp.toNat = 256 then
              t = { s with run := .faulted, faultCode := 1, faultInfo := 0x100 }
            else t.run ≠ .faulted

/-- R140: a step that raises changes nothing but `run` and the fault record. -/
def Obligations.RaisingStepsArePrecise : Prop :=
  ∀ s t : State, s.run = .running → step s = .next t → t.run = .faulted →
    t.x = s.x ∧ t.pc = s.pc ∧ t.sp = s.sp ∧ t.mem = s.mem ∧ t.out = s.out

/-- R101, R134: no step raises UnsupportedOperationError. -/
def Obligations.UnsupportedOperationIsUnreachable : Prop :=
  ∀ s t : State, step s = .next t → s.faultCode ≠ 3 → t.faultCode ≠ 3

/-! ### What a step can do to each component -/

/-- R77: a running machine is HALTED after a step exactly when the step decoded the opcode 0x01. -/
def Obligations.HaltedExactlyAfterOpcodeOne : Prop :=
  ∀ s t : State, s.run = .running → step s = .next t →
    (t.run = .halted ↔ s.pc.toNat ≤ 253 ∧ s.mem.read s.pc.toNat = 0x01)

/-- R18: only PUSH and CALL (by minus 1) and POP and RETURN (by plus 1) change `sp`. -/
def Obligations.OnlyFourInstructionsMoveTheStackPointer : Prop :=
  ∀ s t : State, s.run = .running → s.sp.toNat ≤ 256 → step s = .next t → t.sp ≠ s.sp →
    s.pc.toNat ≤ 253 ∧
    ((s.mem.read s.pc.toNat ∈ ([0x45, 0x50] : List Byte) ∧ t.sp.toNat + 1 = s.sp.toNat) ∨
      (s.mem.read s.pc.toNat ∈ ([0x46, 0x11] : List Byte) ∧ t.sp.toNat = s.sp.toNat + 1))

/-- R21, R92: a step leaves `out` as it is, or is a PRINT_REGISTER that appends the register it names. -/
def Obligations.OnlyPrintRegisterEmits : Prop :=
  ∀ s t : State, step s = .next t →
    t.out = s.out ∨
    (s.run = .running ∧ s.pc.toNat ≤ 253 ∧ s.mem.read s.pc.toNat = 0x47 ∧
      ∃ h : (s.mem.read (s.pc.toNat + 1)).toNat < 8, t.out = s.out ++ [s.x[(s.mem.read (s.pc.toNat + 1)).toNat]])

/-- R22: the only cell a step can write is the one below `sp`, and only PUSH and CALL write it. -/
def Obligations.OnlyPushAndCallWriteMemory : Prop :=
  ∀ (s t : State) (k : Nat), step s = .next t → t.mem.read k ≠ s.mem.read k →
    s.run = .running ∧ s.pc.toNat ≤ 253 ∧ s.mem.read s.pc.toNat ∈ ([0x45, 0x50] : List Byte) ∧
    (k : Int) = s.pushAddress

/-- R20, R21: no instruction reads `out` or the fault record: with other values there, a running machine does the same
to every other component and emits the same. -/
def Obligations.OutputAndFaultRecordAreNeverRead : Prop :=
  ∀ (s t : State) (o : List Byte) (c : BitVec 3) (f : Ptr), s.run = .running → step s = .next t →
    ∃ t', step { s with out := o, faultCode := c, faultInfo := f } = .next t' ∧
      t'.x = t.x ∧ t'.pc = t.pc ∧ t'.sp = t.sp ∧ t'.mem = t.mem ∧ t'.run = t.run ∧
      ∃ e, t.out = s.out ++ e ∧ t'.out = o ++ e

/-! ### Memory -/

/-- R30: the memory contract. A write in range lands in its cell and changes nothing else; a read in range gives the
cell; out of range either one raises AddressError with the address. -/
def Obligations.MemoryMeetsItsContract : Prop :=
  ∀ (addr : Int) (v : Byte) (s : State),
    (0 ≤ addr → addr ≤ 255 →
      memRead addr s = .ok (s.mem.read addr.toNat) ∧
      ∃ t, memWrite addr v s = .ok t ∧ t = { s with mem := t.mem } ∧ t.mem.read addr.toNat = v ∧
        ∀ k, k ≠ addr.toNat → t.mem.read k = s.mem.read k) ∧
    (addr < 0 ∨ 255 < addr →
      memRead addr s = .error (.address addr) ∧ memWrite addr v s = .error (.address addr))

/-- The canonical form: every write to a cell keeps it, and memories in it that read the same are the same data. -/
def Obligations.CanonicalMemoriesAreDeterminedByTheirReads : Prop :=
  (∀ (m : Memory) (k : Nat) (v : Byte), m.wf = true → k < 256 → (m.write k v).wf = true) ∧
  (∀ m n : Memory, m.wf = true → n.wf = true → (∀ k, m.read k = n.read k) → m = n)

/-- R41, R42: PUSH and CALL execute with the bytes fetched before their push, wherever the pushed cell lies, a cell of
their own fetch window (`pc`, `pc + 1`, `pc + 2`) included; and the fetch of the very next step gives the pushed byte
where it reads that cell, and elsewhere the bytes that were there. -/
def Obligations.PushedByteIsFetchedByTheNextStep : Prop :=
  ∀ (s : State) (a : Byte) (h : a.toNat < 8), s.run = .running → s.pc.toNat ≤ 253 →
    s.mem.read (s.pc.toNat + 1) = a → 1 ≤ s.sp.toNat → s.sp.toNat ≤ 256 →
    let target := if s.mem.read s.pc.toNat = 0x50 ∧ a.toNat ≠ 2 then s.x[a.toNat].toNat else s.pc.toNat + 2
    let pushed := if s.mem.read s.pc.toNat = 0x50 then BitVec.ofNat 8 (s.pc.toNat + 2) else s.x[a.toNat]
    let cell := fun k => if k = s.sp.toNat - 1 then pushed else s.mem.read k
    s.mem.read s.pc.toNat ∈ ([0x45, 0x50] : List Byte) →
    ∃ t, step s = .next t ∧ t.run = .running ∧ t.sp.toNat = s.sp.toNat - 1 ∧ t.pc.toNat = target ∧
      (∀ k, t.mem.read k = cell k) ∧
      (target ≤ 253 → fetch t = .ok (cell target, cell (target + 1), cell (target + 2)))

/-! ### Invariants -/

/-- R29: the invariants hold at reset. -/
def Obligations.ResetMeetsTheInvariants : Prop := State.reset.Inv

/-- Every step keeps the invariants of R29, from every state that has them: `pc` and `sp` at most 256, memory in its
canonical form, and a fault record that agrees with `run` and is one of those R130 lists. -/
def Obligations.StepKeepsTheInvariants : Prop :=
  ∀ s t : State, s.Inv → step s = .next t → t.Inv

/-- R29: every state a run comes to from the launch of an image has registers and cells of 0 to 255, `pc` and `sp` at
most 256, a `fault_code` that is 0 exactly when RUNNING or HALTED, as many outputs as completed PRINT_REGISTER
instructions, and the model's other invariants. -/
def Obligations.ReachableStatesMeetTheInvariants : Prop :=
  ∀ (image : List Byte) (launched s : State) (k : Nat),
    launch image = .next launched → Host.Core.run core k launched = .next s →
    (∀ i : Fin 8, s.x[i].toNat ≤ 255) ∧ (∀ a, (s.mem.read a).toNat ≤ 255) ∧
    s.pc.toNat ≤ 256 ∧ s.sp.toNat ≤ 256 ∧ (s.faultCode = 0 ↔ s.run = .running ∨ s.run = .halted) ∧
    s.out.length = printsIn k launched ∧ s.Inv

/-- R29: `out` has as many entries more as PRINT_REGISTER instructions have completed. -/
def Obligations.OutputLengthCountsPrints : Prop :=
  ∀ (s t : State) (k : Nat), Host.Core.run core k s = .next t → t.out.length = s.out.length + printsIn k s

/-- R77, D6: a run that comes to a normal end has failed nowhere: HALTED and FAULTED exclude each other for good. -/
def Obligations.HaltedRunNeverFails : Prop :=
  ∀ (s t : State) (k : Nat), Host.Core.run core k s = .next t → t.Final → s.NeverFails

/-! ### Encoding -/

/-- Decoding the bytes of any instruction gives it back with every operand at every value, with the bytes that follow
left over; and so does the three-byte window of a step, whatever the padding bytes are (R51). -/
def Obligations.DecodeGivesBackTheEncodedInstruction : Prop :=
  ∀ i : Instr,
    (∀ rest, decodeBytes (encode i ++ rest) = .ok (i, rest)) ∧
    (∀ p q op a b tail, encode i ++ [p, q] = op :: a :: b :: tail → decode op a b = .ok i)

/-- Bytes that decode are the encoding of what they decode to, followed by the rest. -/
def Obligations.EncodeGivesBackTheDecodedBytes : Prop :=
  ∀ (bytes rest : List Byte) (i : Instr), decodeBytes bytes = .ok (i, rest) → bytes = encode i ++ rest

/-- R56, R63: words written out from the encoding tables. -/
def Obligations.SpecWordsDecodeToTheirInstructions : Prop :=
  decode 0b00000001 0xFF 0xFF = .ok .halt ∧
  decode 0b10000010 0b00000000 0b00001000 = .ok (.loadImmediate 0 8) ∧
  decode 0b01000111 0b00000111 0xFF = .ok (.printRegister 7) ∧
  decode 0b10100010 0b00000101 0b00000010 = .ok (.multiply 5 2) ∧
  decode 0b10100000 0b00000000 0b00000001 = .ok (.add 0 1) ∧
  decode 0b01000101 0b00000011 0x00 = .ok (.push 3) ∧
  decode 0b01000110 0b00000001 0x00 = .ok (.pop 1) ∧
  decode 0b01010000 0b00000010 0x00 = .ok (.call 2) ∧
  decode 0b00010001 0xFF 0xFF = .ok .ret

/-- R60: of the 256 opcode bytes exactly 247 are illegal. -/
def Obligations.TwoHundredFortySevenBytesAreIllegal : Prop :=
  ((List.range 256).filter fun n => (lookup (BitVec.ofNat 8 n)).isNone).length = 247

/-! ### The spec's properties of instruction sequences, from any state -/

/-- R94: LOAD_IMMEDIATE then PRINT_REGISTER of the same register. -/
def Obligations.LoadThenPrintOutputsTheByte : Prop :=
  ∀ (s : State) (r v : Byte) (hr : r.toNat < 8), s.run = .running → s.pc.toNat ≤ 250 →
    s.mem.read s.pc.toNat = 0x82 → s.mem.read (s.pc.toNat + 1) = r → s.mem.read (s.pc.toNat + 2) = v →
    s.mem.read (s.pc.toNat + 3) = 0x47 → s.mem.read (s.pc.toNat + 4) = r →
    Host.Core.run core 2 s =
      .next { s with x := s.x.set r.toNat v hr, pc := BitVec.ofNat 9 (s.pc.toNat + 5), out := s.out ++ [v] }

/-- R113: the stack round trip, the twelve bytes written out. The cell pushed to lies outside them. -/
def Obligations.StackRoundTripOutputsTheByte : Prop :=
  ∀ (s : State) (r v : Byte) (hr : r.toNat < 8), s.run = .running → s.pc.toNat + 10 ≤ 253 →
    (∀ k, k < 12 → some (s.mem.read (s.pc.toNat + k)) =
      ([0x82, r, v, 0x45, r, 0x82, r, 0x00, 0x46, r, 0x47, r] : List Byte)[k]?) →
    1 ≤ s.sp.toNat → s.sp.toNat ≤ 256 →
    (s.sp.toNat - 1 < s.pc.toNat ∨ s.pc.toNat + 12 ≤ s.sp.toNat - 1) →
    ∃ t, Host.Core.run core 5 s = .next t ∧
      t = { s with
        x := s.x.set r.toNat v hr, pc := BitVec.ofNat 9 (s.pc.toNat + 12), out := s.out ++ [v], mem := t.mem } ∧
      t.mem.read (s.sp.toNat - 1) = v ∧ ∀ k, k ≠ s.sp.toNat - 1 → t.mem.read k = s.mem.read k

/-- R114: PUSH of `a` then POP into `b` copies the register, and its only trace is the cell below `sp`. -/
def Obligations.PushThenPopCopiesARegister : Prop :=
  ∀ (s : State) (a b : Byte) (ha : a.toNat < 8) (hb : b.toNat < 8), s.run = .running → s.pc.toNat ≤ 251 →
    1 ≤ s.sp.toNat → s.sp.toNat ≤ 256 →
    (∀ k, k < 4 → some (s.mem.read (s.pc.toNat + k)) = ([0x45, a, 0x46, b] : List Byte)[k]?) →
    s.sp.toNat - 1 ≠ s.pc.toNat + 2 → s.sp.toNat - 1 ≠ s.pc.toNat + 3 →
    ∃ t, Host.Core.run core 2 s = .next t ∧
      t = { s with
        x := s.x.set b.toNat s.x[a.toNat] hb, pc := BitVec.ofNat 9 (s.pc.toNat + 4), mem := t.mem } ∧
      t.mem.read (s.sp.toNat - 1) = s.x[a.toNat] ∧ ∀ k, k ≠ s.sp.toNat - 1 → t.mem.read k = s.mem.read k

/-- R114: POP then PUSH of the same register leaves `sp` and memory as they were and loads the top of the stack. -/
def Obligations.PopThenPushLoadsTheTopOfTheStack : Prop :=
  ∀ (s : State) (a : Byte) (ha : a.toNat < 8), s.Inv → s.run = .running → s.pc.toNat ≤ 251 →
    s.sp.toNat ≤ 255 →
    (∀ k, k < 4 → some (s.mem.read (s.pc.toNat + k)) = ([0x46, a, 0x45, a] : List Byte)[k]?) →
    Host.Core.run core 2 s =
      .next { s with
        x := s.x.set a.toNat (s.mem.read s.sp.toNat) ha, pc := BitVec.ofNat 9 (s.pc.toNat + 4) }

/-- R126: a CALL of a subroutine that returns at once resumes at the call address plus 2; a CALL of register 2 is
there after its first step. -/
def Obligations.CallThenReturnResumesAfterTheCall : Prop :=
  ∀ (s : State) (a : Byte) (ha : a.toNat < 8), s.run = .running → s.pc.toNat ≤ 253 →
    s.mem.read s.pc.toNat = 0x50 → s.mem.read (s.pc.toNat + 1) = a →
    1 ≤ s.sp.toNat → s.sp.toNat ≤ 256 →
    (a.toNat ≠ 2 → s.x[a.toNat].toNat ≤ 253 → s.mem.read s.x[a.toNat].toNat = 0x11 →
      s.sp.toNat - 1 ≠ s.x[a.toNat].toNat →
      ∃ t, Host.Core.run core 2 s = .next t ∧
        t = { s with
          x := s.x.set 2 (BitVec.ofNat 8 (s.pc.toNat + 2)), pc := BitVec.ofNat 9 (s.pc.toNat + 2), mem := t.mem } ∧
        (t.mem.read (s.sp.toNat - 1)).toNat = s.pc.toNat + 2 ∧
        ∀ k, k ≠ s.sp.toNat - 1 → t.mem.read k = s.mem.read k) ∧
    (a.toNat = 2 → ∃ t, step s = .next t ∧ t.pc.toNat = s.pc.toNat + 2)

/-- R124: PUSH then RETURN jumps to the address in the register, with `sp` where it was. -/
def Obligations.PushThenReturnIsAJump : Prop :=
  ∀ (s : State) (a : Byte) (ha : a.toNat < 8), s.run = .running → s.pc.toNat ≤ 251 →
    s.mem.read s.pc.toNat = 0x45 → s.mem.read (s.pc.toNat + 1) = a → s.mem.read (s.pc.toNat + 2) = 0x11 →
    1 ≤ s.sp.toNat → s.sp.toNat ≤ 256 → s.sp.toNat - 1 ≠ s.pc.toNat + 2 →
    ∃ t, Host.Core.run core 2 s = .next t ∧
      t = { s with
        x := s.x.set 2 s.x[a.toNat], pc := BitVec.ofNat 9 s.x[a.toNat].toNat, mem := t.mem } ∧
      t.mem.read (s.sp.toNat - 1) = s.x[a.toNat] ∧ ∀ k, k ≠ s.sp.toNat - 1 → t.mem.read k = s.mem.read k
end

