-- ==== Sys2Proof/Laws/Decode.lean ====
section
/-! SUPPORT. The opcode table: no two rows overlap, and the look-up finds exactly its rows. -/

namespace Sys2Proof

/-- Decoding is unambiguous: the nine opcode bytes are pairwise different (U-9 check a). -/
theorem opcode_codes_distinct : (Opcode.all.map fun o => o.row.code).Pairwise (· ≠ ·) := by decide

/-- The observation of R58: bits 7:6 count the operands. -/
theorem opcode_operand_bits (o : Opcode) : (o.row.code >>> 6).toNat = o.row.format.operandCount := by
  cases o <;> rfl

/-- For the instructions that continue with a delta other than 0, the delta is the length (R56). -/
theorem opcode_delta_eq_length (o : Opcode) (h : o.row.pcDelta ≠ 0) : o.row.pcDelta = o.length := by
  cases o <;> first | rfl | exact absurd rfl h

/-- An instruction is 1 to 3 bytes long (R50). -/
theorem opcode_length_bounds (o : Opcode) : 1 ≤ o.length ∧ o.length ≤ 3 := by cases o <;> decide

theorem opcode_mem_all (o : Opcode) : o ∈ Opcode.all := by cases o <;> decide

@[simp] theorem lookup_code (o : Opcode) : lookup o.row.code = some o := by cases o <;> rfl

theorem lookup_some {op : Byte} {o : Opcode} (h : lookup op = some o) : op = o.row.code := by
  have := List.find?_some h
  simpa using (eq_of_beq this).symm

/-- The look-up finds exactly the table's rows (R56, R72). -/
theorem lookup_eq_some_iff {op : Byte} {o : Opcode} : lookup op = some o ↔ op = o.row.code :=
  ⟨lookup_some, fun h => h ▸ lookup_code o⟩

theorem lookup_eq_none_iff {op : Byte} :
    lookup op = none ↔
      op ∉ ([0x01, 0x82, 0x47, 0xA2, 0xA0, 0x45, 0x46, 0x50, 0x11] : List Byte) := by
  rw [show ([0x01, 0x82, 0x47, 0xA2, 0xA0, 0x45, 0x46, 0x50, 0x11] : List Byte)
    = Opcode.all.map (fun o => o.row.code) from rfl]
  cases h : lookup op with
  | none =>
    refine ⟨fun _ hm => ?_, fun _ => rfl⟩
    obtain ⟨o, -, rfl⟩ := List.mem_map.mp hm
    simp at h
  | some o =>
    refine ⟨fun h' => (nomatch h'), fun hm => absurd ?_ hm⟩
    exact List.mem_map.mpr ⟨o, opcode_mem_all o, (lookup_some h).symm⟩

@[simp] theorem opcode_assemble (o : Opcode) (a b : Byte) : (o.assemble a b).opcode = o := by cases o <;> rfl

theorem decode_code (o : Opcode) (a b : Byte) : decode o.row.code a b = .ok (o.assemble a b) := by
  simp [decode]

theorem decode_of_lookup {op : Byte} {o : Opcode} (h : lookup op = some o) (a b : Byte) :
    decode op a b = .ok (o.assemble a b) := by
  simp [decode, h]

theorem decode_of_lookup_none {op : Byte} (h : lookup op = none) (a b : Byte) :
    decode op a b = .error (.unknownOpcode op) := by
  simp [decode, h]

/-- Everything `decode` can answer. -/
theorem decode_cases (op a b : Byte) :
    (∃ o : Opcode, op = o.row.code ∧ decode op a b = .ok (o.assemble a b)) ∨
    (lookup op = none ∧ decode op a b = .error (.unknownOpcode op)) := by
  cases h : lookup op with
  | some o => exact .inl ⟨o, lookup_some h, decode_of_lookup h a b⟩
  | none => exact .inr ⟨rfl, decode_of_lookup_none h a b⟩

theorem decode_ok {op a b : Byte} {i : Instr} (h : decode op a b = .ok i) :
    op = i.opcode.row.code ∧ i = i.opcode.assemble a b := by
  rcases decode_cases op a b with ⟨o, ho, hd⟩ | ⟨-, hd⟩
  · rw [hd] at h
    cases h
    simp [ho]
  · rw [hd] at h; cases h

/-! ### Legal operands -/

theorem firstIllegal_gt {i : Instr} {c : Byte} (h : i.firstIllegal = some c) : 7 < c.toNat := by
  have := List.find?_some h
  simpa [legalRegister] using this

theorem firstIllegal_eq_none_iff (i : Instr) : i.firstIllegal = none ↔ i.wellFormed = true := by
  simp [Instr.firstIllegal, Instr.wellFormed]

end Sys2Proof
end

