-- ==== Sys2Proof/Laws/Memory.lean ====
section
/-! SUPPORT. The laws of memory: read after write, and that every operation keeps the canonical form. -/

namespace Sys2Proof.Machine

@[simp] theorem read_nil (k : Nat) : Memory.read k [] = 0 := rfl

theorem read_cons (k a : Nat) (v : Byte) (m : Memory) :
    Memory.read k ((a, v) :: m) = if a = k then v else Memory.read k m := rfl

/-! ### Reads after erase, insert, write -/

theorem read_erase_self (k : Nat) (m : Memory) : Memory.read k (Memory.erase k m) = 0 := by
  induction m with
  | nil => rfl
  | cons c m ih =>
    obtain ⟨a, v⟩ := c
    by_cases h : a = k
    · simpa [Memory.erase, h] using ih
    · simpa [Memory.erase, h, read_cons] using ih

theorem read_erase_of_ne {k j : Nat} (h : j ≠ k) (m : Memory) :
    Memory.read j (Memory.erase k m) = Memory.read j m := by
  induction m with
  | nil => rfl
  | cons c m ih =>
    obtain ⟨a, v⟩ := c
    by_cases ha : a = k
    · have hj : k ≠ j := fun e => h e.symm
      simpa [Memory.erase, ha, read_cons, hj] using ih
    · by_cases hj : a = j
      · simp [Memory.erase, read_cons, hj, h]
      · simpa [Memory.erase, ha, read_cons, hj] using ih

theorem erase_no_key (k : Nat) (m : Memory) : ∀ c ∈ Memory.erase k m, c.1 ≠ k := by
  intro c hc
  simpa [Memory.erase] using (List.mem_filter.mp hc).2

theorem read_insert_self (k : Nat) (v : Byte) (m : Memory) (h : ∀ c ∈ m, c.1 ≠ k) :
    Memory.read k (Memory.insert k v m) = v := by
  induction m with
  | nil => simp [Memory.insert, read_cons]
  | cons c m ih =>
    obtain ⟨a, w⟩ := c
    have ha : a ≠ k := h (a, w) (by simp)
    unfold Memory.insert
    split
    · simp [read_cons]
    · simpa [read_cons, ha] using ih fun c hc => h c (by simp [hc])

theorem read_insert_of_ne {k j : Nat} (hj : j ≠ k) (v : Byte) (m : Memory) :
    Memory.read j (Memory.insert k v m) = Memory.read j m := by
  have hk : k ≠ j := fun e => hj e.symm
  induction m with
  | nil => simp [Memory.insert, read_cons, hk, unlisted, Memory.read]
  | cons c m ih =>
    obtain ⟨a, w⟩ := c
    unfold Memory.insert
    split
    · simp [read_cons, hk]
    · simp [read_cons, ih]

/-- A read after a write to the same cell gives the value written (R30). -/
@[simp] theorem read_write_self (k : Nat) (v : Byte) (m : Memory) :
    Memory.read k (Memory.write k v m) = v := by
  unfold Memory.write
  split
  · next h => rw [read_erase_self, h]; rfl
  · exact read_insert_self k v _ (erase_no_key k m)

/-- A write changes no other cell (R30). -/
theorem read_write_of_ne {k j : Nat} (h : j ≠ k) (v : Byte) (m : Memory) :
    Memory.read j (Memory.write k v m) = Memory.read j m := by
  unfold Memory.write
  split
  · exact read_erase_of_ne h m
  · rw [read_insert_of_ne h, read_erase_of_ne h]

theorem read_write (j k : Nat) (v : Byte) (m : Memory) :
    Memory.read j (Memory.write k v m) = if j = k then v else Memory.read j m := by
  split
  · next h => subst h; simp
  · next h => exact read_write_of_ne h v m

/-! ### The canonical form -/

theorem wfFrom_cons {lo a : Nat} {v : Byte} {m : Memory} :
    Memory.wfFrom lo ((a, v) :: m) = true ↔
      lo ≤ a ∧ a < 256 ∧ v ≠ 0 ∧ Memory.wfFrom (a + 1) m = true := by
  simp only [Memory.wfFrom, Bool.and_eq_true, decide_eq_true_eq, and_assoc]
  rfl

theorem wfFrom_mono {lo lo' : Nat} (h : lo' ≤ lo) {m : Memory} (hm : Memory.wfFrom lo m = true) :
    Memory.wfFrom lo' m = true := by
  cases m with
  | nil => rfl
  | cons c m =>
    obtain ⟨a, v⟩ := c
    rw [wfFrom_cons] at *
    exact ⟨by omega, hm.2⟩

theorem wfFrom_erase {lo : Nat} (k : Nat) {m : Memory} (hm : Memory.wfFrom lo m = true) :
    Memory.wfFrom lo (Memory.erase k m) = true := by
  induction m generalizing lo with
  | nil => exact hm
  | cons c m ih =>
    obtain ⟨a, v⟩ := c
    rw [wfFrom_cons] at hm
    obtain ⟨hlo, ha, hv, hm⟩ := hm
    by_cases h : a = k
    · have := wfFrom_mono (by omega : lo ≤ a + 1) (ih hm)
      simpa [Memory.erase, h] using this
    · have : Memory.erase k ((a, v) :: m) = (a, v) :: Memory.erase k m := by simp [Memory.erase, h]
      rw [this, wfFrom_cons]
      exact ⟨hlo, ha, hv, ih hm⟩

theorem wfFrom_insert {lo k : Nat} {v : Byte} (hk : k < 256) (hlo : lo ≤ k) (hv : v ≠ 0) {m : Memory}
    (hm : Memory.wfFrom lo m = true) (hno : ∀ c ∈ m, c.1 ≠ k) :
    Memory.wfFrom lo (Memory.insert k v m) = true := by
  induction m generalizing lo with
  | nil => rw [Memory.insert, wfFrom_cons]; exact ⟨hlo, hk, hv, rfl⟩
  | cons c m ih =>
    obtain ⟨a, w⟩ := c
    have ha : a ≠ k := hno (a, w) (by simp)
    rw [wfFrom_cons] at hm
    obtain ⟨h1, h2, h3, h4⟩ := hm
    unfold Memory.insert
    split
    · next hlt =>
      rw [wfFrom_cons, wfFrom_cons]
      exact ⟨hlo, hk, hv, by simpa using hlt, h2, h3, h4⟩
    · next hnlt =>
      rw [wfFrom_cons]
      have hnlt : ¬ k < a := hnlt
      exact ⟨h1, h2, h3, ih (by omega) h4 fun c hc => hno c (by simp [hc])⟩

/-- A write to a cell of memory keeps the canonical form. -/
theorem wf_write {k : Nat} (hk : k < 256) (v : Byte) {m : Memory} (hm : m.wf = true) :
    (m.write k v).wf = true := by
  unfold Memory.write
  split
  · exact wfFrom_erase k hm
  · next hv => exact wfFrom_insert hk (Nat.zero_le k) hv (wfFrom_erase k hm) (erase_no_key k m)

@[simp] theorem wf_nil : Memory.wf [] = true := rfl

theorem read_of_wfFrom_lt {lo k : Nat} (h : k < lo) {m : Memory} (hm : Memory.wfFrom lo m = true) :
    Memory.read k m = 0 := by
  induction m generalizing lo with
  | nil => rfl
  | cons c m ih =>
    obtain ⟨a, v⟩ := c
    rw [wfFrom_cons] at hm
    have hak : a ≠ k := by omega
    simpa [read_cons, hak] using ih (by omega : k < a + 1) hm.2.2.2

theorem eq_of_read_eq_from {lo : Nat} {m n : Memory} (hm : Memory.wfFrom lo m = true)
    (hn : Memory.wfFrom lo n = true) (h : ∀ k, Memory.read k m = Memory.read k n) : m = n := by
  induction m generalizing lo n with
  | nil =>
    cases n with
    | nil => rfl
    | cons d n =>
      obtain ⟨b, w⟩ := d
      rw [wfFrom_cons] at hn
      exact absurd (by simpa [read_cons] using (h b).symm) hn.2.2.1
  | cons c m ih =>
    obtain ⟨a, v⟩ := c
    rw [wfFrom_cons] at hm
    cases n with
    | nil => exact absurd (by simpa [read_cons] using h a) hm.2.2.1
    | cons d n =>
      obtain ⟨b, w⟩ := d
      rw [wfFrom_cons] at hn
      have hab : a = b := by
        rcases Nat.lt_trichotomy a b with hlt | heq | hgt
        · have h0 := read_of_wfFrom_lt (by omega : a < b + 1) hn.2.2.2
          have := h a
          rw [read_cons, read_cons, if_pos rfl, if_neg (by omega), h0] at this
          exact absurd this hm.2.2.1
        · exact heq
        · have h0 := read_of_wfFrom_lt (by omega : b < a + 1) hm.2.2.2
          have := h b
          rw [read_cons, read_cons, if_neg (by omega), if_pos rfl, h0] at this
          exact absurd this.symm hn.2.2.1
      subst hab
      have hvw : v = w := by simpa [read_cons] using h a
      subst hvw
      congr 1
      refine ih hm.2.2.2 hn.2.2.2 fun k => ?_
      by_cases hk : k < a + 1
      · rw [read_of_wfFrom_lt hk hm.2.2.2, read_of_wfFrom_lt hk hn.2.2.2]
      · simpa [read_cons, show a ≠ k by omega] using h k

/-- Writing back the byte a cell holds changes nothing. -/
theorem write_read_self {k : Nat} (hk : k < 256) {m : Memory} (hm : m.wf = true) :
    m.write k (m.read k) = m := by
  refine eq_of_read_eq_from (lo := 0) (wf_write hk _ hm) hm fun j => ?_
  rw [read_write]
  split
  · next h => rw [h]
  · rfl

/-! ### Images -/

/-- Every cell of a written image: the image's bytes from `k` on, and what was there elsewhere (R164). -/
theorem read_writeImage (image : List Byte) (k j : Nat) (m : Memory) :
    Memory.read j (writeImage k image m) =
      if k ≤ j ∧ j < k + image.length then image.getD (j - k) 0 else Memory.read j m := by
  induction image generalizing k m with
  | nil => simp [writeImage]
  | cons v vs ih =>
    rw [writeImage, ih, read_write]
    by_cases h1 : j = k
    · subst h1; simp
    · by_cases h2 : k + 1 ≤ j ∧ j < k + 1 + vs.length
      · rw [if_pos h2, if_pos (by simp only [List.length_cons]; omega)]
        obtain ⟨d, rfl⟩ : ∃ d, j = k + 1 + d := ⟨j - (k + 1), by omega⟩
        rw [show k + 1 + d - k = d + 1 by omega, show k + 1 + d - (k + 1) = d by omega]
        simp
      · rw [if_neg h2, if_neg h1, if_neg (by simp only [List.length_cons]; omega)]

theorem wf_writeImage (image : List Byte) (k : Nat) {m : Memory} (hk : k + image.length ≤ 256)
    (hm : m.wf = true) : (writeImage k image m).wf = true := by
  induction image generalizing k m with
  | nil => exact hm
  | cons v vs ih =>
    simp only [List.length_cons] at hk
    exact ih (k + 1) (by omega) (wf_write (by omega) v hm)

end Sys2Proof.Machine
end

