-- ==== Sys2Proof/Laws/State.lean ====
section
/-! SUPPORT. One lemma per field and update: what each named update of State does to each field. -/

namespace Sys2Proof.Machine

variable (s : State) (i j : RegIndex) (v : Byte) (e : ErrorKind) (t : Ptr)

/-! ### Reset -/

@[simp] theorem reset_x : State.reset.x = Vector.replicate 8 0 := rfl
@[simp] theorem reset_pc : State.reset.pc = 0 := rfl
@[simp] theorem reset_sp : State.reset.sp = 256 := rfl
@[simp] theorem reset_mem : State.reset.mem = [] := rfl
@[simp] theorem reset_run : State.reset.run = .running := rfl
@[simp] theorem reset_faultCode : State.reset.faultCode = 0 := rfl
@[simp] theorem reset_faultInfo : State.reset.faultInfo = 0 := rfl
@[simp] theorem reset_out : State.reset.out = [] := rfl
@[simp] theorem assertReset_eq : s.assertReset = State.reset := rfl

/-! ### setReg -/

@[simp] theorem setReg_pc : (s.setReg i v).pc = s.pc := rfl
@[simp] theorem setReg_sp : (s.setReg i v).sp = s.sp := rfl
@[simp] theorem setReg_mem : (s.setReg i v).mem = s.mem := rfl
@[simp] theorem setReg_run : (s.setReg i v).run = s.run := rfl
@[simp] theorem setReg_faultCode : (s.setReg i v).faultCode = s.faultCode := rfl
@[simp] theorem setReg_faultInfo : (s.setReg i v).faultInfo = s.faultInfo := rfl
@[simp] theorem setReg_out : (s.setReg i v).out = s.out := rfl
theorem setReg_x : (s.setReg i v).x = s.x.set i v := rfl

@[simp] theorem reg_setReg_self : (s.setReg i v).reg i = v := by
  simp [State.reg, State.setReg]

theorem reg_setReg_of_ne (h : j ≠ i) : (s.setReg i v).reg j = s.reg j := by
  have : (i : Nat) ≠ j := fun he => h (Fin.ext he.symm)
  simp [State.reg, State.setReg, this]

theorem reg_setReg : (s.setReg i v).reg j = if j = i then v else s.reg j := by
  split
  · next h => subst h; simp
  · next h => exact reg_setReg_of_ne s i j v h

/-! ### emit, jump -/

@[simp] theorem emit_x : (s.emit v).x = s.x := rfl
@[simp] theorem emit_pc : (s.emit v).pc = s.pc := rfl
@[simp] theorem emit_sp : (s.emit v).sp = s.sp := rfl
@[simp] theorem emit_mem : (s.emit v).mem = s.mem := rfl
@[simp] theorem emit_run : (s.emit v).run = s.run := rfl
@[simp] theorem emit_faultCode : (s.emit v).faultCode = s.faultCode := rfl
@[simp] theorem emit_faultInfo : (s.emit v).faultInfo = s.faultInfo := rfl
@[simp] theorem emit_out : (s.emit v).out = s.out ++ [v] := rfl

@[simp] theorem jump_x : (s.jump t).x = s.x := rfl
@[simp] theorem jump_pc : (s.jump t).pc = t := rfl
@[simp] theorem jump_sp : (s.jump t).sp = s.sp := rfl
@[simp] theorem jump_mem : (s.jump t).mem = s.mem := rfl
@[simp] theorem jump_run : (s.jump t).run = s.run := rfl
@[simp] theorem jump_faultCode : (s.jump t).faultCode = s.faultCode := rfl
@[simp] theorem jump_faultInfo : (s.jump t).faultInfo = s.faultInfo := rfl
@[simp] theorem jump_out : (s.jump t).out = s.out := rfl

/-! ### raise -/

@[simp] theorem raise_x : (s.raise e).x = s.x := rfl
@[simp] theorem raise_pc : (s.raise e).pc = s.pc := rfl
@[simp] theorem raise_sp : (s.raise e).sp = s.sp := rfl
@[simp] theorem raise_mem : (s.raise e).mem = s.mem := rfl
@[simp] theorem raise_run : (s.raise e).run = .faulted := rfl
@[simp] theorem raise_faultCode : (s.raise e).faultCode = e.code := rfl
@[simp] theorem raise_faultInfo : (s.raise e).faultInfo = e.info := rfl
@[simp] theorem raise_out : (s.raise e).out = s.out := rfl

/-! ### finish: only `pc` and `run` can change, and of these one -/

variable (o : Opcode)

@[simp] theorem finish_x : (finish o s).x = s.x := by unfold finish; split <;> rfl
@[simp] theorem finish_sp : (finish o s).sp = s.sp := by unfold finish; split <;> rfl
@[simp] theorem finish_mem : (finish o s).mem = s.mem := by unfold finish; split <;> rfl
@[simp] theorem finish_faultCode : (finish o s).faultCode = s.faultCode := by unfold finish; split <;> rfl
@[simp] theorem finish_faultInfo : (finish o s).faultInfo = s.faultInfo := by unfold finish; split <;> rfl
@[simp] theorem finish_out : (finish o s).out = s.out := by unfold finish; split <;> rfl

theorem finish_of_continues (h : o.row.continues = true) :
    finish o s = { s with pc := s.pcPlus o.row.pcDelta } := by
  simp [finish, h]

theorem finish_halt : finish .halt s = { s with run := .halted } := rfl

/-- Adding the delta 0 of CALL and RETURN leaves the `pc` they set (R74). -/
@[simp] theorem pcPlus_zero : s.pcPlus 0 = s.pc := by
  simp [State.pcPlus]

theorem finish_call : finish .call s = s := by
  rw [finish_of_continues s _ rfl]
  show { s with pc := s.pcPlus 0 } = s
  rw [pcPlus_zero]

theorem finish_ret : finish .ret s = s := by
  rw [finish_of_continues s _ rfl]
  show { s with pc := s.pcPlus 0 } = s
  rw [pcPlus_zero]

/-- The addition does not wrap after a completed fetch (R16). -/
theorem pcPlus_toNat (d : Nat) (h : s.pc.toNat + d < 512) : (s.pcPlus d).toNat = s.pc.toNat + d := by
  simp only [State.pcPlus, BitVec.toNat_ofNat]
  exact Nat.mod_eq_of_lt h

/-- The return address fits a byte after a completed fetch (R121 corner case 1). -/
theorem returnAddress_toNat (h : s.pc.toNat ≤ 253) : s.returnAddress.toNat = s.pc.toNat + 2 := by
  simp only [State.returnAddress, BitVec.toNat_ofNat]
  exact Nat.mod_eq_of_lt (by omega)

@[simp] theorem zext9_toNat : (zext9 v).toNat = v.toNat := by
  simp only [zext9, BitVec.toNat_setWidth]
  exact Nat.mod_eq_of_lt (by omega)

end Sys2Proof.Machine
end

