-- ==== Sys2Proof/Laws/Ops.lean ====
section
/-! SUPPORT. One lemma per shared operation: everything it can do. Provers cite these instead of unfolding. -/

namespace Sys2Proof.Machine

/-! ### The memory port -/

theorem memRead_of_valid {addr : Int} (h : validAddress addr) (s : State) :
    memRead addr s = .ok (s.mem.read addr.toNat) := if_pos h

theorem memRead_of_invalid {addr : Int} (h : ¬ validAddress addr) (s : State) :
    memRead addr s = .error (.address addr) := if_neg h

theorem memRead_natCast {k : Nat} (h : k ≤ 255) (s : State) : memRead (k : Int) s = .ok (s.mem.read k) :=
  memRead_of_valid ⟨by omega, by omega⟩ s

theorem memWrite_of_valid {addr : Int} (h : validAddress addr) (v : Byte) (s : State) :
    memWrite addr v s = .ok { s with mem := s.mem.write addr.toNat v } := if_pos h

theorem memWrite_of_invalid {addr : Int} (h : ¬ validAddress addr) (v : Byte) (s : State) :
    memWrite addr v s = .error (.address addr) := if_neg h

/-! ### The stack -/

theorem validAddress_pushAddress (s : State) :
    validAddress s.pushAddress ↔ 1 ≤ s.sp.toNat ∧ s.sp.toNat ≤ 256 := by
  simp only [validAddress, State.pushAddress]; omega

theorem validAddress_popAddress (s : State) : validAddress s.popAddress ↔ s.sp.toNat ≤ 255 := by
  simp only [validAddress, State.popAddress]; omega

/-- The state after a push that is not refused. -/
theorem pushByte_of_valid {s : State} (h : validAddress s.pushAddress) (v : Byte) :
    pushByte v s = .ok { s with
      mem := s.mem.write (s.sp.toNat - 1) v, sp := BitVec.ofNat 9 (s.sp.toNat - 1) } := by
  have h' := (validAddress_pushAddress s).mp h
  have hcast : s.pushAddress = ((s.sp.toNat - 1 : Nat) : Int) := by
    simp only [State.pushAddress]; omega
  simp only [pushByte, memWrite_of_valid h]
  rw [hcast]
  rfl

theorem pushByte_of_invalid {s : State} (h : ¬ validAddress s.pushAddress) (v : Byte) :
    pushByte v s = .error (.address s.pushAddress) := by
  simp only [pushByte, memWrite_of_invalid h]
  rfl

/-- The state after a pop that is not refused. -/
theorem popInto_of_valid {s : State} (h : validAddress s.popAddress) (i : RegIndex) :
    popInto i s = .ok { s with
      x := s.x.set i (s.mem.read s.sp.toNat), sp := BitVec.ofNat 9 (s.sp.toNat + 1) } := by
  simp only [popInto, memRead_of_valid h]
  rfl

theorem popInto_of_invalid {s : State} (h : ¬ validAddress s.popAddress) (i : RegIndex) :
    popInto i s = .error (.address s.popAddress) := by
  simp only [popInto, memRead_of_invalid h]
  rfl

/-! ### Operands -/

theorem registerOperand_of_lt {a : Byte} (h : a.toNat < 8) : registerOperand a = .ok ⟨a.toNat, h⟩ :=
  dif_pos h

theorem registerOperand_of_gt {a : Byte} (h : 7 < a.toNat) : registerOperand a = .error (.register a) :=
  dif_neg (by omega)

theorem legalRegister_iff {a : Byte} : legalRegister a = true ↔ a.toNat < 8 := by
  simp only [legalRegister, decide_eq_true_eq]; omega

/-! ### Settling an instruction -/

theorem dispatch_ok (o : Opcode) (s t : State) : dispatch o s (.ok t) = .next (finish o t) := rfl

theorem dispatch_error (o : Opcode) (s : State) (e : ErrorKind) :
    dispatch o s (.error e) = .next (s.raise e) := rfl

/-- Everything `dispatch` can answer. -/
theorem dispatch_cases {o : Opcode} {s t : State} {h : Except ErrorKind State} (hd : dispatch o s h = .next t) :
    (∃ u, h = .ok u ∧ t = finish o u) ∨ (∃ e, h = .error e ∧ t = s.raise e) := by
  cases h with
  | ok u => exact .inl ⟨u, rfl, (Host.Outcome.next.inj hd).symm⟩
  | error e => exact .inr ⟨e, rfl, (Host.Outcome.next.inj hd).symm⟩

end Sys2Proof.Machine
end

