-- ==== Sys2Proof/Laws/Exec.lean ====
section
/-! SUPPORT. Everything `exec` can do, said once: an instruction is handled, or it raises. -/

namespace Sys2Proof.Machine

/-- `Handled i s u`: executed in `s`, instruction `i` runs to the end of its handler with `u`. -/
inductive Handled : Instr → State → State → Prop
  | halt (s) : Handled .halt s s
  | loadImmediate (a b s) (h : a.toNat < 8) : Handled (.loadImmediate a b) s (s.setReg ⟨a.toNat, h⟩ b)
  | printRegister (a s) (h : a.toNat < 8) : Handled (.printRegister a) s (s.emit (s.reg ⟨a.toNat, h⟩))
  | multiply (a b s) (ha : a.toNat < 8) (hb : b.toNat < 8) :
      Handled (.multiply a b) s (aluRun .multiply ⟨a.toNat, ha⟩ ⟨b.toNat, hb⟩ s)
  | add (a b s) (ha : a.toNat < 8) (hb : b.toNat < 8) :
      Handled (.add a b) s (aluRun .add ⟨a.toNat, ha⟩ ⟨b.toNat, hb⟩ s)
  | push (a s) (h : a.toNat < 8) (hv : validAddress s.pushAddress) :
      Handled (.push a) s { s with
        mem := s.mem.write (s.sp.toNat - 1) (s.reg ⟨a.toNat, h⟩), sp := BitVec.ofNat 9 (s.sp.toNat - 1) }
  | pop (a s) (h : a.toNat < 8) (hv : validAddress s.popAddress) :
      Handled (.pop a) s { s with
        x := s.x.set a.toNat (s.mem.read s.sp.toNat) h, sp := BitVec.ofNat 9 (s.sp.toNat + 1) }
  | call (a s) (h : a.toNat < 8) (hv : validAddress s.pushAddress) :
      Handled (.call a) s { s with
        x := s.x.set 2 s.returnAddress
        mem := s.mem.write (s.sp.toNat - 1) s.returnAddress, sp := BitVec.ofNat 9 (s.sp.toNat - 1)
        pc := zext9 ((s.setReg linkReg s.returnAddress).reg ⟨a.toNat, h⟩) }
  | ret (s) (hv : validAddress s.popAddress) :
      Handled .ret s { s with
        x := s.x.set 2 (s.mem.read s.sp.toNat), sp := BitVec.ofNat 9 (s.sp.toNat + 1)
        pc := zext9 (s.mem.read s.sp.toNat) }

/-- `Raises i s e`: executed in `s`, instruction `i` raises `e`. A register operand comes before the stack (R138). -/
inductive Raises : Instr → State → ErrorKind → Prop
  | register (i s c) (h : i.firstIllegal = some c) : Raises i s (.register c)
  | push (a s) (h : a.toNat < 8) (hv : ¬ validAddress s.pushAddress) : Raises (.push a) s (.address s.pushAddress)
  | call (a s) (h : a.toNat < 8) (hv : ¬ validAddress s.pushAddress) : Raises (.call a) s (.address s.pushAddress)
  | pop (a s) (h : a.toNat < 8) (hv : ¬ validAddress s.popAddress) : Raises (.pop a) s (.address s.popAddress)
  | ret (s) (hv : ¬ validAddress s.popAddress) : Raises .ret s (.address s.popAddress)

variable {i : Instr} {s t u : State} {e : ErrorKind}

theorem popInto_reg_link (h : validAddress s.popAddress) :
    (do let t ← popInto linkReg s; return t.jump (zext9 (t.reg linkReg)) : Except ErrorKind State) =
      .ok { s with
        x := s.x.set 2 (s.mem.read s.sp.toNat), sp := BitVec.ofNat 9 (s.sp.toNat + 1)
        pc := zext9 (s.mem.read s.sp.toNat) } := by
  rw [popInto_of_valid h]
  show Except.ok _ = Except.ok _
  simp [State.jump, State.reg, linkReg]

/-- What a handled instruction answers. -/
theorem exec_of_handled (h : Handled i s u) : exec i s = .next (finish i.opcode u) := by
  cases h with
  | halt => rfl
  | loadImmediate a b _ ha => simp only [exec, execLoadImmediate, registerOperand_of_lt ha]; rfl
  | printRegister a _ ha => simp only [exec, execPrintRegister, registerOperand_of_lt ha]; rfl
  | multiply a b _ ha hb =>
    simp only [exec, execMultiply, registerOperand_of_lt ha, registerOperand_of_lt hb]; rfl
  | add a b _ ha hb => simp only [exec, execAdd, registerOperand_of_lt ha, registerOperand_of_lt hb]; rfl
  | push a _ ha hv =>
    simp only [exec, execPush, registerOperand_of_lt ha]
    show dispatch .push s (pushByte _ s) = _
    rw [pushByte_of_valid hv]; rfl
  | pop a _ ha hv =>
    simp only [exec, execPop, registerOperand_of_lt ha]
    show dispatch .pop s (popInto _ s) = _
    rw [popInto_of_valid hv]; rfl
  | call a _ ha hv =>
    have hv' : validAddress (s.setReg linkReg s.returnAddress).pushAddress := hv
    simp only [exec, execCall, registerOperand_of_lt ha, reg_setReg_self]
    show dispatch .call s (pushByte _ (s.setReg linkReg s.returnAddress) >>= _) = _
    rw [pushByte_of_valid hv']; rfl
  | ret _ hv => simp only [exec, execRet, popInto_reg_link hv]; rfl

theorem firstIllegal_one {a c : Byte} (h : ([a].find? fun b => !legalRegister b) = some c) : c = a ∧ 7 < a.toNat := by
  have hc := List.mem_of_find?_eq_some h
  have hg := List.find?_some h
  simp only [List.mem_singleton] at hc
  subst hc
  exact ⟨rfl, by simpa [legalRegister] using hg⟩

theorem firstIllegal_two {a b c : Byte} (h : ([a, b].find? fun b => !legalRegister b) = some c) :
    (c = a ∧ 7 < a.toNat) ∨ (c = b ∧ a.toNat < 8 ∧ 7 < b.toNat) := by
  by_cases ha : a.toNat < 8
  · rw [List.find?_cons_of_neg (by simp [legalRegister_iff.mpr ha])] at h
    exact .inr ⟨(firstIllegal_one h).1, ha, (firstIllegal_one h).2⟩
  · rw [List.find?_cons_of_pos (by simp [legalRegister]; omega)] at h
    exact .inl ⟨(Option.some.inj h).symm, by omega⟩

/-- What a raising instruction answers. -/
theorem exec_of_raises (h : Raises i s e) : exec i s = .next (s.raise e) := by
  cases h with
  | register _ _ c h =>
    cases i with
    | halt => cases h
    | ret => cases h
    | loadImmediate a b =>
      obtain ⟨rfl, ha⟩ := firstIllegal_one h
      simp only [exec, execLoadImmediate, registerOperand_of_gt ha]; rfl
    | printRegister a =>
      obtain ⟨rfl, ha⟩ := firstIllegal_one h
      simp only [exec, execPrintRegister, registerOperand_of_gt ha]; rfl
    | push a =>
      obtain ⟨rfl, ha⟩ := firstIllegal_one h
      simp only [exec, execPush, registerOperand_of_gt ha]; rfl
    | pop a =>
      obtain ⟨rfl, ha⟩ := firstIllegal_one h
      simp only [exec, execPop, registerOperand_of_gt ha]; rfl
    | call a =>
      obtain ⟨rfl, ha⟩ := firstIllegal_one h
      simp only [exec, execCall, registerOperand_of_gt ha]; rfl
    | multiply a b =>
      rcases firstIllegal_two h with ⟨rfl, ha⟩ | ⟨rfl, ha, hb⟩
      · simp only [exec, execMultiply, registerOperand_of_gt ha]; rfl
      · simp only [exec, execMultiply, registerOperand_of_lt ha, registerOperand_of_gt hb]; rfl
    | add a b =>
      rcases firstIllegal_two h with ⟨rfl, ha⟩ | ⟨rfl, ha, hb⟩
      · simp only [exec, execAdd, registerOperand_of_gt ha]; rfl
      · simp only [exec, execAdd, registerOperand_of_lt ha, registerOperand_of_gt hb]; rfl
  | push a _ ha hv =>
    simp only [exec, execPush, registerOperand_of_lt ha]
    show dispatch .push s (pushByte _ s) = _
    rw [pushByte_of_invalid hv]; rfl
  | pop a _ ha hv =>
    simp only [exec, execPop, registerOperand_of_lt ha]
    show dispatch .pop s (popInto _ s) = _
    rw [popInto_of_invalid hv]; rfl
  | call a _ ha hv =>
    have hv' : ¬ validAddress (s.setReg linkReg s.returnAddress).pushAddress := hv
    simp only [exec, execCall, registerOperand_of_lt ha, reg_setReg_self]
    show dispatch .call s (pushByte _ (s.setReg linkReg s.returnAddress) >>= _) = _
    rw [pushByte_of_invalid hv']; rfl
  | ret _ hv =>
    simp only [exec, execRet]
    rw [popInto_of_invalid hv]; rfl

theorem legal_of_wellFormed_one {a : Byte} (h : ([a].all legalRegister) = true) : a.toNat < 8 := by
  simpa [legalRegister_iff] using h

theorem legal_of_wellFormed_two {a b : Byte} (h : ([a, b].all legalRegister) = true) :
    a.toNat < 8 ∧ b.toNat < 8 := by
  simpa [legalRegister_iff] using h

/-- An instruction is handled or raises: there is no third case. -/
theorem handled_or_raises (i : Instr) (s : State) : (∃ u, Handled i s u) ∨ (∃ e, Raises i s e) := by
  cases hf : i.firstIllegal with
  | some c => exact .inr ⟨_, .register i s c hf⟩
  | none =>
    rw [firstIllegal_eq_none_iff] at hf
    cases i with
    | halt => exact .inl ⟨_, .halt s⟩
    | loadImmediate a b => exact .inl ⟨_, .loadImmediate a b s (legal_of_wellFormed_one hf)⟩
    | printRegister a => exact .inl ⟨_, .printRegister a s (legal_of_wellFormed_one hf)⟩
    | multiply a b =>
      exact .inl ⟨_, .multiply a b s (legal_of_wellFormed_two hf).1 (legal_of_wellFormed_two hf).2⟩
    | add a b => exact .inl ⟨_, .add a b s (legal_of_wellFormed_two hf).1 (legal_of_wellFormed_two hf).2⟩
    | push a =>
      by_cases hv : validAddress s.pushAddress
      · exact .inl ⟨_, .push a s (legal_of_wellFormed_one hf) hv⟩
      · exact .inr ⟨_, .push a s (legal_of_wellFormed_one hf) hv⟩
    | call a =>
      by_cases hv : validAddress s.pushAddress
      · exact .inl ⟨_, .call a s (legal_of_wellFormed_one hf) hv⟩
      · exact .inr ⟨_, .call a s (legal_of_wellFormed_one hf) hv⟩
    | pop a =>
      by_cases hv : validAddress s.popAddress
      · exact .inl ⟨_, .pop a s (legal_of_wellFormed_one hf) hv⟩
      · exact .inr ⟨_, .pop a s (legal_of_wellFormed_one hf) hv⟩
    | ret =>
      by_cases hv : validAddress s.popAddress
      · exact .inl ⟨_, .ret s hv⟩
      · exact .inr ⟨_, .ret s hv⟩

/-- Everything `exec` can answer: the one inversion that later proofs use. -/
theorem exec_cases (h : exec i s = .next t) :
    (∃ u, Handled i s u ∧ t = finish i.opcode u) ∨ (∃ e, Raises i s e ∧ t = s.raise e) := by
  rcases handled_or_raises i s with ⟨u, hu⟩ | ⟨e, he⟩
  · rw [exec_of_handled hu] at h
    exact .inl ⟨u, hu, (Host.Outcome.next.inj h).symm⟩
  · rw [exec_of_raises he] at h
    exact .inr ⟨e, he, (Host.Outcome.next.inj h).symm⟩

end Sys2Proof.Machine
end

