-- ==== Sys2Proof/Laws/Loader.lean ====
section
/-! SUPPORT. The Loader's operations: what the text of a line is, which characters are a byte's literal, and that a
parsed image is the accepted bytes. -/

namespace Sys2Proof.Machine

/-! ### The text of a line -/

theorem isBlank_iff {c : Char} : isBlank c = true ↔ c ∈ blanks := by
  simp [isBlank, blanks, or_assoc]

/-- A line is white space, its text, white space and a comment. -/
theorem exists_lineText (line : List Char) : ∃ before after comment,
    line = before ++ lineText line ++ after ++ comment ∧ (∀ c ∈ before ++ after, c ∈ blanks) ∧ IsComment comment := by
  refine ⟨(line.takeWhile (· ≠ '#')).takeWhile isBlank,
    (((line.takeWhile (· ≠ '#')).dropWhile isBlank).reverse.takeWhile isBlank).reverse, line.dropWhile (· ≠ '#'),
    ?_, ?_, ?_⟩
  · rw [lineText, List.append_assoc _ _ (List.reverse _), ← List.reverse_append, List.takeWhile_append_dropWhile,
      List.reverse_reverse, List.takeWhile_append_dropWhile, List.takeWhile_append_dropWhile]
  · intro c hc
    rcases List.mem_append.mp hc with h | h
    · exact isBlank_iff.mp (List.mem_takeWhile_imp h)
    · exact isBlank_iff.mp (List.mem_takeWhile_imp (List.mem_reverse.mp h))
  · unfold IsComment
    cases h : line.dropWhile (· ≠ '#') with
    | nil => exact .inl rfl
    | cons c cs =>
      have := List.head?_dropWhile_not (p := fun c => decide (c ≠ '#')) line
      rw [h] at this
      exact .inr (by simpa using this)

/-- White space and a comment around characters that are neither leave them as the line's text. -/
theorem lineText_of_append {before text after comment : List Char} (hs : ∀ c ∈ before ++ after, c ∈ blanks)
    (hc : IsComment comment) (ht : ∀ c ∈ text, c ≠ '#' ∧ c ∉ blanks) :
    lineText (before ++ text ++ after ++ comment) = text := by
  have hblank : ∀ c ∈ blanks, c ≠ '#' := by simp [blanks]
  have hbody : ∀ c ∈ before ++ text ++ after, c ≠ '#' := by
    intro c h
    simp only [List.mem_append] at h hs
    rcases h with (h | h) | h
    · exact hblank c (hs c (.inl h))
    · exact (ht c h).1
    · exact hblank c (hs c (.inr h))
  have htake : (before ++ text ++ after ++ comment).takeWhile (· ≠ '#') = before ++ text ++ after := by
    rw [List.takeWhile_append_of_pos (by simpa using hbody)]
    rcases hc with rfl | hc
    · simp
    · cases comment with
      | nil => simp
      | cons d ds => simp at hc; simp [hc]
  have hnb : ∀ c ∈ text, isBlank c = false := fun c h => by
    simpa [isBlank_iff] using (Bool.not_eq_true _).mp (fun e => (ht c h).2 (isBlank_iff.mp e))
  have hdrop : ∀ (bs l rest : List Char), (∀ c ∈ bs, isBlank c = true) → (∀ c ∈ l, isBlank c = false) →
      l ≠ [] → (bs ++ l ++ rest).dropWhile isBlank = l ++ rest := by
    intro bs l rest hb hl hne
    rw [List.append_assoc, List.dropWhile_append_of_pos hb]
    cases l with
    | nil => exact absurd rfl hne
    | cons d ds => exact List.dropWhile_cons_of_neg (by simp [hl d (by simp)])
  have hbefore : ∀ c ∈ before, isBlank c = true := fun c h => isBlank_iff.mpr (hs c (by simp [h]))
  have hafter : ∀ c ∈ after, isBlank c = true := fun c h => isBlank_iff.mpr (hs c (by simp [h]))
  rw [lineText, htake]
  by_cases hne : text = []
  · subst hne
    rw [List.append_nil, List.dropWhile_append_of_pos hbefore, List.dropWhile_eq_nil_iff.mpr hafter]
    rfl
  · rw [hdrop before text after hbefore hnb hne, List.reverse_append]
    have := hdrop after.reverse text.reverse [] (by simpa using hafter) (by simpa using hnb) (by simpa using hne)
    rw [List.append_nil, List.append_nil] at this
    rw [this, List.reverse_reverse]

/-! ### Binary literals -/

/-- The low `len` binary digits of a number, most significant first. -/
def binaryDigits (len n : Nat) : List Char :=
  (List.range len).map fun k => if n.testBit (len - 1 - k) then '1' else '0'

theorem binaryDigits_succ (len n : Nat) :
    binaryDigits (len + 1) n = (if n.testBit len then '1' else '0') :: binaryDigits len n := by
  simp only [binaryDigits, List.range_succ_eq_map, List.map_cons, List.map_map]
  congr 1
  refine List.map_congr_left fun k _ => ?_
  simp only [Function.comp, Nat.succ_eq_add_one]
  rw [show len + 1 - 1 - (k + 1) = len - 1 - k by omega]

/-- Reading digits is the inverse of writing them. -/
theorem binaryValue_eq_some {text : List Char} {acc n : Nat} :
    binaryValue acc text = some n ↔ text = binaryDigits text.length n ∧ n / 2 ^ text.length = acc := by
  induction text generalizing acc with
  | nil => simp [binaryValue, binaryDigits, eq_comm]
  | cons c cs ih =>
    have hq : n / 2 ^ (cs.length + 1) = n / 2 ^ cs.length / 2 := by rw [pow_succ, Nat.div_div_eq_div_mul]
    rw [List.length_cons, binaryDigits_succ, List.cons.injEq, hq, Nat.testBit_eq_decide_div_mod_eq]
    unfold binaryValue
    split
    · next h => cases h
    · next h =>
      obtain ⟨rfl, rfl⟩ := List.cons.inj h
      rw [ih]
      generalize n / 2 ^ cs.length = q
      by_cases hb : q % 2 = 1
      · simp [hb]; omega
      · simp [hb]; omega
    · next h =>
      obtain ⟨rfl, rfl⟩ := List.cons.inj h
      rw [ih]
      generalize n / 2 ^ cs.length = q
      by_cases hb : q % 2 = 1
      · simp [hb]; omega
      · simp [hb]; omega
    · next h0 h1 h =>
      obtain ⟨rfl, rfl⟩ := List.cons.inj h
      split <;> simp [show c ≠ '0' from h0, show c ≠ '1' from h1]

theorem binaryLiteral_eq (v : Byte) : binaryLiteral v = binaryDigits 8 v.toNat := by
  refine List.map_congr_left fun k hk => ?_
  have : k < 8 := List.mem_range.mp hk
  simp [BitVec.getMsbD, BitVec.getLsbD, this]

@[simp] theorem length_binaryLiteral (v : Byte) : (binaryLiteral v).length = 8 := rfl

/-- Eight characters read as a byte exactly when they are its literal. -/
theorem binaryValue_eq_some_iff {text : List Char} (h : text.length = 8) (v : Byte) :
    binaryValue 0 text = some v.toNat ↔ text = binaryLiteral v := by
  rw [binaryValue_eq_some, h, binaryLiteral_eq, Nat.div_eq_of_lt (by simpa using v.isLt)]
  simp

theorem binaryValue_lt {text : List Char} (h : text.length = 8) {n : Nat} (hn : binaryValue 0 text = some n) :
    n < 256 := by
  have := (binaryValue_eq_some.mp hn).2
  rw [h] at this
  omega

/-- A literal has neither a comment's beginning nor white space in it. -/
theorem mem_binaryLiteral {v : Byte} {c : Char} (h : c ∈ binaryLiteral v) : c ≠ '#' ∧ c ∉ blanks := by
  obtain ⟨k, -, rfl⟩ := List.mem_map.mp h
  split <;> decide

/-- Everything a line can give. -/
theorem parseLine_cases (line : List Char) :
    (lineText line = [] ∧ parseLine line = .skipped) ∨
    (∃ v, lineText line = binaryLiteral v ∧ parseLine line = .accepted v) ∨
    (lineText line ≠ [] ∧ (∀ v, lineText line ≠ binaryLiteral v) ∧ parseLine line = .malformed) := by
  simp only [parseLine]
  split
  · next h => exact .inl ⟨h, rfl⟩
  · next hne =>
    right
    split
    · next hlen =>
      split
      · next n hn =>
        have hlt := binaryValue_lt hlen hn
        exact .inl ⟨_, (binaryValue_eq_some_iff hlen _).mp (by simpa [Nat.mod_eq_of_lt hlt] using hn), rfl⟩
      · next hn =>
        refine .inr ⟨hne, fun v hv => ?_, rfl⟩
        rw [(binaryValue_eq_some_iff hlen v).mpr hv] at hn
        cases hn
    · next hlen => exact .inr ⟨hne, fun v hv => hlen (by rw [hv]; rfl), rfl⟩

/-! ### The image -/

@[simp] theorem parseImage_nil (strict : Bool) : parseImage strict [] = some [] := rfl

theorem parseImage_cons (strict : Bool) (line : List Char) (rest : List (List Char)) :
    parseImage strict (line :: rest) =
      if strict = true ∧ parseLine line = .malformed then none
      else (parseImage strict rest).map ((parseLine line).byte?.toList ++ ·) := by
  cases h : parseLine line <;> cases strict <;> simp [parseImage, h, LineResult.byte?]

end Sys2Proof.Machine
end

