-- ==== Sys2Proof/Laws/PerInstr.lean ====
section
/-! SUPPORT. Facts about each instruction as syntax, one lemma per constructor. -/

namespace Sys2Proof.Laws.EncodedLength

/-- The encoding of an instruction has the length its table row gives, 1 to 3 bytes, and its first byte is looked up as
the instruction's own opcode (R50, R56, R57). -/
def Statement (i : Instr) : Prop :=
  (encode i).length = i.opcode.length ∧ 1 ≤ i.opcode.length ∧ i.opcode.length ≤ 3 ∧
    ((encode i).head?.bind lookup) = some i.opcode

theorem halt : Statement .halt := ⟨rfl, (opcode_length_bounds _).1, (opcode_length_bounds _).2, rfl⟩
theorem loadImmediate (a b : Byte) : Statement (.loadImmediate a b) := ⟨rfl, (opcode_length_bounds _).1, (opcode_length_bounds _).2, rfl⟩
theorem printRegister (a : Byte) : Statement (.printRegister a) := ⟨rfl, (opcode_length_bounds _).1, (opcode_length_bounds _).2, rfl⟩
theorem multiply (a b : Byte) : Statement (.multiply a b) := ⟨rfl, (opcode_length_bounds _).1, (opcode_length_bounds _).2, rfl⟩
theorem add (a b : Byte) : Statement (.add a b) := ⟨rfl, (opcode_length_bounds _).1, (opcode_length_bounds _).2, rfl⟩
theorem push (a : Byte) : Statement (.push a) := ⟨rfl, (opcode_length_bounds _).1, (opcode_length_bounds _).2, rfl⟩
theorem pop (a : Byte) : Statement (.pop a) := ⟨rfl, (opcode_length_bounds _).1, (opcode_length_bounds _).2, rfl⟩
theorem call (a : Byte) : Statement (.call a) := ⟨rfl, (opcode_length_bounds _).1, (opcode_length_bounds _).2, rfl⟩
theorem ret : Statement .ret := ⟨rfl, (opcode_length_bounds _).1, (opcode_length_bounds _).2, rfl⟩

end Sys2Proof.Laws.EncodedLength
end

