-- ==== Sys2Proof/Laws/Step.lean ====
section
/-! SUPPORT. Everything a step can do, said once. -/

namespace Sys2Proof.Machine

variable {s t : State}

/-- The fetch succeeds at `pc` up to 253 (R71). -/
theorem fetch_of_le (h : s.pc.toNat ≤ 253) :
    fetch s = .ok (s.mem.read s.pc.toNat, s.mem.read (s.pc.toNat + 1), s.mem.read (s.pc.toNat + 2)) := by
  have h0 := memRead_natCast (k := s.pc.toNat) (by omega) s
  have h1 := memRead_natCast (k := s.pc.toNat + 1) (by omega) s
  have h2 := memRead_natCast (k := s.pc.toNat + 2) (by omega) s
  simp only [Nat.cast_add, Nat.cast_one, Nat.cast_ofNat] at h1 h2
  simp only [fetch, h0, h1, h2]
  rfl

/-- Above 253 it raises AddressError at the first address out of range (R35, R71). -/
theorem fetch_of_gt (h : 254 ≤ s.pc.toNat) :
    fetch s = .error (.address (max (s.pc.toNat : Int) 256)) := by
  by_cases h6 : 256 ≤ s.pc.toNat
  · rw [max_eq_left (by omega)]
    simp only [fetch, memRead_of_invalid (addr := (s.pc.toNat : Int)) (by simp only [validAddress]; omega)]
    rfl
  · rw [max_eq_right (by omega)]
    have h0 := memRead_natCast (k := s.pc.toNat) (by omega) s
    by_cases h5 : s.pc.toNat = 255
    · have h1 := memRead_of_invalid (addr := (s.pc.toNat : Int) + 1) (by simp only [validAddress]; omega) s
      rw [show (s.pc.toNat : Int) + 1 = 256 by omega] at h1
      simp only [fetch, h0, show (s.pc.toNat : Int) + 1 = 256 by omega, h1]
      rfl
    · have h1 := memRead_natCast (k := s.pc.toNat + 1) (by omega) s
      have h2 := memRead_of_invalid (addr := (s.pc.toNat : Int) + 2) (by simp only [validAddress]; omega) s
      simp only [Nat.cast_add, Nat.cast_one] at h1
      rw [show (s.pc.toNat : Int) + 2 = 256 by omega] at h2
      simp only [fetch, h0, h1, show (s.pc.toNat : Int) + 2 = 256 by omega, h2]
      rfl

theorem fetchInstr_of_gt (h : 254 ≤ s.pc.toNat) :
    fetchInstr s = .error (.address (max (s.pc.toNat : Int) 256)) := by
  simp only [fetchInstr, fetch_of_gt h]
  rfl

theorem fetchInstr_of_ok {i : Instr} (h : s.pc.toNat ≤ 253)
    (hd : decode (s.mem.read s.pc.toNat) (s.mem.read (s.pc.toNat + 1)) (s.mem.read (s.pc.toNat + 2)) = .ok i) :
    fetchInstr s = .ok i := by
  simp only [fetchInstr, fetch_of_le h, Except.bind, bind, hd]
  rfl

theorem fetchInstr_of_unknown (h : s.pc.toNat ≤ 253) (hl : lookup (s.mem.read s.pc.toNat) = none) :
    fetchInstr s = .error (.unknownOpcode (s.mem.read s.pc.toNat)) := by
  simp only [fetchInstr, fetch_of_le h, Except.bind, bind, decode_of_lookup_none hl]
  rfl

theorem step_of_not_running (h : s.run ≠ .running) : step s = .next s := by
  unfold step
  split
  · next hr => exact absurd hr h
  · rfl
  · rfl

theorem step_of_fetch_error {e : ErrorKind} (hr : s.run = .running) (h : fetchInstr s = .error e) :
    step s = .next (s.raise e) := by
  simp only [step, hr, h]

theorem step_of_fetch_ok {i : Instr} (hr : s.run = .running) (h : fetchInstr s = .ok i) :
    step s = exec i s := by
  simp only [step, hr, h]

/-- Everything a step can answer: the one inversion that later proofs use. -/
theorem step_cases (h : step s = .next t) :
    (s.run ≠ .running ∧ t = s) ∨
    (s.run = .running ∧ 254 ≤ s.pc.toNat ∧ t = s.raise (.address (max (s.pc.toNat : Int) 256))) ∨
    (s.run = .running ∧ s.pc.toNat ≤ 253 ∧ lookup (s.mem.read s.pc.toNat) = none ∧
      t = s.raise (.unknownOpcode (s.mem.read s.pc.toNat))) ∨
    (s.run = .running ∧ s.pc.toNat ≤ 253 ∧ ∃ o : Opcode, s.mem.read s.pc.toNat = o.row.code ∧
      exec (o.assemble (s.mem.read (s.pc.toNat + 1)) (s.mem.read (s.pc.toNat + 2))) s = .next t) := by
  by_cases hr : s.run = .running
  · by_cases hp : s.pc.toNat ≤ 253
    · rcases decode_cases (s.mem.read s.pc.toNat) (s.mem.read (s.pc.toNat + 1)) (s.mem.read (s.pc.toNat + 2))
        with ⟨o, ho, hd⟩ | ⟨hl, -⟩
      · rw [step_of_fetch_ok hr (fetchInstr_of_ok hp hd)] at h
        exact .inr (.inr (.inr ⟨hr, hp, o, ho, h⟩))
      · rw [step_of_fetch_error hr (fetchInstr_of_unknown hp hl)] at h
        exact .inr (.inr (.inl ⟨hr, hp, hl, (Host.Outcome.next.inj h).symm⟩))
    · rw [step_of_fetch_error hr (fetchInstr_of_gt (by omega))] at h
      exact .inr (.inl ⟨hr, by omega, (Host.Outcome.next.inj h).symm⟩)
  · rw [step_of_not_running hr] at h
    exact .inl ⟨hr, (Host.Outcome.next.inj h).symm⟩

/-! ### Runs -/

@[simp] theorem run_zero : Host.Core.run core 0 s = .next s := rfl

theorem any_run_succ (M : Host.Core) (k : Nat) (s u : M.State) (h : M.step s = .next u) :
    M.run (k + 1) s = M.run k u := by
  simp only [Host.Core.run, h]

theorem any_run_succ_cases (M : Host.Core) (k : Nat) (s t : M.State) (h : M.run (k + 1) s = .next t) :
    ∃ u, M.step s = .next u ∧ M.run k u = .next t := by
  simp only [Host.Core.run] at h
  split at h
  · next u hu => exact ⟨u, hu, h⟩
  · cases h
  · cases h

/-- One more step at the front of a run. -/
theorem run_succ_of_next {u : State} (k : Nat) (h : step s = .next u) :
    Host.Core.run core (k + 1) s = Host.Core.run core k u :=
  any_run_succ core k s u h

/-- The first step of a run that answered a state. -/
theorem run_succ_cases {k : Nat} (h : Host.Core.run core (k + 1) s = .next t) :
    ∃ u, step s = .next u ∧ Host.Core.run core k u = .next t :=
  any_run_succ_cases core k s t h

/-- An induction over runs, once: what every step keeps, every run keeps. -/
theorem run_keeps {P : State → Prop} (hstep : ∀ s t, P s → step s = .next t → P t) (k : Nat) (hs : P s)
    (h : Host.Core.run core k s = .next t) : P t := by
  induction k generalizing s with
  | zero => exact Host.Outcome.next.inj h ▸ hs
  | succ k ih =>
    obtain ⟨u, hu, hk⟩ := run_succ_cases h
    exact ih (hstep s u hs hu) hk

end Sys2Proof.Machine
end

