-- ==== Sys2Proof/Tests/Slice0.lean ====
section
/-! SUPPORT. Tests and witnesses. Expected results are taken from spec/95_test_vectors.md (vector V<n>, example E<n>,
program P<n>) and from the encodings of spec/30_encoding.md, never from the model. -/

namespace Sys2Proof.Tests

open Machine

/-! ### Helpers -/

/-- The state an outcome holds. -/
def nextOf : Host.Outcome State Fault Refusal → Option State
  | .next s => some s
  | .fault _ => none
  | .refused _ => none

/-- The base state of 95_test_vectors.md with `pc`, `sp` and listed cells. -/
def base (pc sp : Nat) (cells : List (Nat × Byte)) : State :=
  { State.reset with
    pc := BitVec.ofNat 9 pc, sp := BitVec.ofNat 9 sp, mem := cells.foldl (fun m c => m.write c.1 c.2) [] }

/-- What a vector's result line lists: register `i`, `pc`, `sp`, the byte at `k`, `out`. -/
def seen (i : RegIndex) (k : Nat) (o : Host.Outcome State Fault Refusal) :
    Option (Byte × Ptr × Ptr × Byte × List Byte) :=
  (nextOf o).map fun s => (s.reg i, s.pc, s.sp, s.mem.read k, s.out)

/-- The fault record after a step: `run`, `fault_code`, `fault_info`. -/
def record (o : Host.Outcome State Fault Refusal) : Option (RunState × BitVec 3 × Ptr) :=
  (nextOf o).map fun s => (s.run, s.faultCode, s.faultInfo)

/-! ### WellFormed smoke tests: an ill-formed term for each check (R53 to R55, R61) -/

theorem test_wf_loadImmediate : (Instr.loadImmediate 8 0).wellFormed = false := by decide
theorem test_wf_printRegister : (Instr.printRegister 8).wellFormed = false := by decide
theorem test_wf_multiply_a : (Instr.multiply 8 0).wellFormed = false := by decide
theorem test_wf_multiply_b : (Instr.multiply 0 9).wellFormed = false := by decide
theorem test_wf_add_a : (Instr.add 255 0).wellFormed = false := by decide
theorem test_wf_add_b : (Instr.add 1 9).wellFormed = false := by decide
theorem test_wf_push : (Instr.push 9).wellFormed = false := by decide
theorem test_wf_pop : (Instr.pop 8).wellFormed = false := by decide
theorem test_wf_call : (Instr.call 200).wellFormed = false := by decide
theorem test_wf_legal : (Instr.loadImmediate 7 255).wellFormed = true ∧ (Instr.add 7 7).wellFormed = true := by decide

/-! ### Words written out from the encodings of R52 to R56; the first byte is the low byte of the number -/

theorem test_word_halt : decodeTableWord 8 0b00000001 = some .halt := by decide
theorem test_word_loadImmediate :
    decodeTableWord 24 0b00001000_00000011_10000010 = some (.loadImmediate 3 8) := by decide
theorem test_word_printRegister : decodeTableWord 16 0b00000111_01000111 = some (.printRegister 7) := by decide
theorem test_word_multiply : decodeTableWord 24 0b00000010_00000101_10100010 = some (.multiply 5 2) := by decide
theorem test_word_add : decodeTableWord 24 0b00000001_00000100_10100000 = some (.add 4 1) := by decide
theorem test_word_push : decodeTableWord 16 0b00000110_01000101 = some (.push 6) := by decide
theorem test_word_pop : decodeTableWord 16 0b00000001_01000110 = some (.pop 1) := by decide
theorem test_word_call : decodeTableWord 16 0b00000010_01010000 = some (.call 2) := by decide
theorem test_word_ret : decodeTableWord 8 0b00010001 = some .ret := by decide

/-- The bits above `nbits` are 0: the table gives operand bytes no bits. -/
theorem test_word_short : decodeTableWord 8 0b11111111_10100010 = some (.multiply 0 0) := by decide

/-- V6, V7, V8: 0x00 and the neighbours of legal opcodes are illegal. -/
theorem test_word_illegal :
    ([0x00, 0x02, 0x81, 0x83, 0xA1, 0xA3, 0x44, 0x48, 0x51, 0x10, 0x12, 0x80, 0x40, 0xC0, 0xFF].all fun w =>
      (decodeTableWord 8 w).isNone) = true := by decide

/-! ### Single steps -/

/-- V1: HALT at the highest address; `pc` stays. -/
theorem test_halt : (nextOf (step (base 253 256 [(253, 0x01), (254, 0xFF), (255, 0xFF)]))).map
    (fun s => (s.run, s.pc, s.faultCode)) = some (.halted, 253, 0) := by decide

/-- V2: at 254 it does not execute. -/
theorem test_halt_at_254 : record (step (base 254 256 [(254, 0x01)])) = some (.faulted, 1, 0x100) := by decide

/-- V11. -/
theorem test_loadImmediate : seen 7 0 (step (base 10 256 [(10, 0x82), (11, 7), (12, 0xFF)])) =
    some (255, 13, 256, 0, []) := by decide

/-- V15. -/
theorem test_loadImmediate_illegal : record (step (base 0 256 [(0, 0x82), (1, 8), (2, 5)])) =
    some (.faulted, 2, 8) := by decide

/-- V20: appended to what was emitted before. -/
theorem test_printRegister : seen 1 9 (step { ((base 0 256 [(0, 0x47), (1, 1)]).setReg 1 255) with out := [1, 2] }) =
    some (255, 2, 256, 0, [1, 2, 255]) := by decide

/-- V24: 600 mod 256. -/
theorem test_multiply : seen 0 9 (step (((base 0 256 [(0, 0xA2), (1, 0), (2, 1)]).setReg 0 200).setReg 1 3)) =
    some (88, 3, 256, 0, []) := by decide

/-- V28: the same register twice. -/
theorem test_multiply_square : seen 3 9 (step ((base 0 256 [(0, 0xA2), (1, 3), (2, 3)]).setReg 3 20)) =
    some (144, 3, 256, 0, []) := by decide

/-- V36, E5: the sum wraps. -/
theorem test_add : seen 0 9 (step (((base 0 256 [(0, 0xA0), (1, 0), (2, 1)]).setReg 0 255).setReg 1 2)) =
    some (1, 3, 256, 0, []) := by decide

/-- V44: operand `a` is reported before operand `b`. -/
theorem test_add_illegal : record (step (base 0 256 [(0, 0xA0), (1, 8), (2, 9)])) = some (.faulted, 2, 8) := by decide

/-- V46: the last possible push. -/
theorem test_push : seen 3 0 (step ((base 0x20 1 [(0x20, 0x45), (0x21, 3)]).setReg 3 0x11)) =
    some (0x11, 0x22, 0, 0x11, []) := by decide

/-- V47: the full stack. -/
theorem test_push_full : record (step (base 0x20 0 [(0x20, 0x45), (0x21, 3)])) = some (.faulted, 1, 0x1FF) := by decide

/-- V52. -/
theorem test_pop : seen 1 255 (step (base 8 255 [(8, 0x46), (9, 1), (255, 0x2A)])) =
    some (0x2A, 10, 256, 0x2A, []) := by decide

/-- V55: the register is reported before the empty stack. -/
theorem test_pop_illegal : record (step (base 0 256 [(0, 0x46), (1, 8)])) = some (.faulted, 2, 8) := by decide

/-- V58. -/
theorem test_call : seen 2 255 (step ((base 3 256 [(3, 0x50), (4, 1)]).setReg 1 8)) =
    some (5, 8, 255, 5, []) := by decide

/-- V59: CALL of register 2 falls through. -/
theorem test_call_r2 : seen 2 255 (step ((base 0x10 256 [(0x10, 0x50), (0x11, 2)]).setReg 2 0x40)) =
    some (0x12, 0x12, 255, 0x12, []) := by decide

/-- V66. -/
theorem test_ret : seen 2 255 (step ((base 11 255 [(11, 0x11), (255, 5)]).setReg 2 0x77)) =
    some (5, 5, 256, 5, []) := by decide

/-- V67: RETURN on the empty stack. -/
theorem test_ret_empty : record (step (base 0 256 [(0, 0x11)])) = some (.faulted, 1, 0x100) := by decide

/-- P9a: the empty image; and V72: a faulted machine stays as it is. -/
theorem test_empty_image : record (step State.reset) = some (.faulted, 4, 0) := by decide
theorem test_faulted_stays : nextOf (step (State.reset.raise (.unknownOpcode 0))) =
    some (State.reset.raise (.unknownOpcode 0)) := by decide

/-- E6: the image in the program-text format of R64, first line with its comment. -/
theorem test_loader_line :
    parseLine ['1', '0', '0', '0', '0', '0', '1', '0', ' ', '#', ' ', 'L', 'O', 'A', 'D'] = .accepted 0x82 := by decide

/-- R64, D25: a malformed line is skipped, or fails a strict load. -/
theorem test_loader_malformed : parseImage false [['1', '2'], [], ['0', '0', '0', '0', '0', '0', '0', '1']] = some [1] ∧
    parseImage true [['1', '2']] = none := by decide

/-- The host's two functions on a table word: from reset, the word is the very next instruction. -/
theorem test_withFetchWord : record (step (State.reset.withFetchWord 8 0x01)) = some (.halted, 0, 0) := by decide

/-! ### Witnesses: for every obligation with hypotheses, a state and operands that meet them, clause by clause at the
boundary values -/

theorem witness_LaunchPlacesTheImageFromAddressZero : ([0x01] : List Byte).length ≤ 256 := by decide
theorem witness_LongerImageIsRefused : 256 < (List.replicate 257 (0 : Byte)).length := by
  rw [List.length_replicate]; decide
/-- A text with an accepted, a comment and a malformed line, and one without a malformed line. -/
theorem witness_LoaderReadsProgramText :
    (∃ line ∈ [['1', '2'], ['#']], parseLine line = .malformed) ∧
    (∀ line ∈ [[], ['#'], [' ', '0', '0', '0', '0', '0', '0', '0', '1', '\t', '#']], parseLine line ≠ .malformed) := by
  decide
theorem witness_FetchReadsThreeBytesOrRaises_in :
    (base 253 256 []).run = .running ∧ (base 253 256 []).pc.toNat ≤ 253 := by decide
theorem witness_FetchReadsThreeBytesOrRaises_out : (base 254 256 []).run = .running ∧
    254 ≤ (base 254 256 []).pc.toNat ∧ (base 256 256 []).run = .running ∧ (base 256 256 []).pc.toNat ≤ 256 := by decide
theorem witness_StepRunsTheDecodedInstruction :
    (base 253 256 [(253, 0x01)]).run = .running ∧ (base 253 256 [(253, 0x01)]).pc.toNat ≤ 253 ∧
    decode ((base 253 256 [(253, 0x01)]).mem.read 253) ((base 253 256 [(253, 0x01)]).mem.read 254)
      ((base 253 256 [(253, 0x01)]).mem.read 255) = .ok .halt := ⟨rfl, by decide, rfl⟩
theorem witness_UnknownOpcodeRaises : State.reset.run = .running ∧ State.reset.pc.toNat ≤ 253 ∧
    State.reset.mem.read State.reset.pc.toNat ∉
      ([0x01, 0x82, 0x47, 0xA2, 0xA0, 0x45, 0x46, 0x50, 0x11] : List Byte) := by decide
theorem witness_TerminalStatesNeverChange : (State.reset.raise (.unknownOpcode 0)).run ≠ .running := by decide
theorem witness_PlacedWordRunsNext : decodeTableWord 8 0x11 = some .ret := by decide
theorem witness_HaltOnlyHalts :
    (base 255 256 []).run = .running ∧ 254 ≤ (base 255 256 []).pc.toNat ∧ (base 255 256 []).pc.toNat ≤ 256 := by decide

theorem witness_LoadImmediateWritesItsByte : (base 253 256 []).pc.toNat ≤ 253 ∧ (7 : Byte).toNat < 8 ∧
    7 < (8 : Byte).toNat := by decide
theorem witness_PrintRegisterEmitsOneByte : (base 253 256 []).pc.toNat ≤ 253 ∧ (7 : Byte).toNat < 8 ∧
    7 < (8 : Byte).toNat := by decide
theorem witness_MultiplyWritesTheProductModulo256 : (base 253 256 []).pc.toNat ≤ 253 ∧ (7 : Byte).toNat < 8 ∧
    (7 : Byte).toNat ≤ 7 ∧ 7 < (8 : Byte).toNat := by decide
theorem witness_AddWritesTheSumModulo256 : (base 253 256 []).pc.toNat ≤ 253 ∧ (0 : Byte).toNat < 8 ∧
    (0 : Byte).toNat ≤ 7 ∧ 7 < (255 : Byte).toNat := by decide
theorem witness_PushStoresAtTheNewStackPointer_room : (base 253 1 []).pc.toNat ≤ 253 ∧ (base 253 1 []).sp.toNat ≤ 256 ∧
    (7 : Byte).toNat < 8 ∧ 1 ≤ (base 253 1 []).sp.toNat := by decide
theorem witness_PushStoresAtTheNewStackPointer_full : (base 253 0 []).pc.toNat ≤ 253 ∧ (base 253 0 []).sp.toNat ≤ 256 ∧
    (7 : Byte).toNat ≤ 7 ∧ (base 253 0 []).sp.toNat = 0 ∧ 7 < (8 : Byte).toNat := by decide
theorem witness_PopReadsAtTheOldStackPointer_some : (base 253 255 []).pc.toNat ≤ 253 ∧
    (base 253 255 []).sp.toNat ≤ 256 ∧ (7 : Byte).toNat < 8 ∧ (base 253 255 []).sp.toNat ≤ 255 := by decide
theorem witness_PopReadsAtTheOldStackPointer_empty : (base 253 256 []).pc.toNat ≤ 253 ∧
    (base 253 256 []).sp.toNat ≤ 256 ∧ (7 : Byte).toNat ≤ 7 ∧ (base 253 256 []).sp.toNat = 256 ∧
    7 < (8 : Byte).toNat := by decide
theorem witness_CallLinksPushesAndJumps_room : (base 253 256 []).pc.toNat ≤ 253 ∧ (base 253 256 []).sp.toNat ≤ 256 ∧
    (2 : Byte).toNat < 8 ∧ (7 : Byte).toNat < 8 ∧ 1 ≤ (base 253 256 []).sp.toNat := by decide
theorem witness_CallLinksPushesAndJumps_full : (base 253 0 []).pc.toNat ≤ 253 ∧ (base 253 0 []).sp.toNat ≤ 256 ∧
    (7 : Byte).toNat ≤ 7 ∧ (base 253 0 []).sp.toNat = 0 ∧ 7 < (8 : Byte).toNat := by decide
theorem witness_ReturnPopsTheProgramCounter : (base 0 255 []).sp.toNat ≤ 255 ∧ (base 0 256 []).sp.toNat = 256 ∧
    (base 0 256 []).sp.toNat ≤ 256 := by decide
theorem witness_FrameOfRegisterWriters : ∃ t, exec (.multiply 7 0) State.reset = .next t ∧
    (Instr.multiply 7 0).wellFormed = true := ⟨_, rfl, by decide⟩
theorem witness_FrameOfHaltAndPrint : ∃ t u, exec .halt State.reset = .next t ∧
    exec (.printRegister 7) State.reset = .next u ∧ (Instr.printRegister 7).wellFormed = true := ⟨_, _, rfl, rfl, by decide⟩
theorem witness_FrameOfPushAndCall : ∃ t u, exec (.push 7) State.reset = .next t ∧ exec (.call 7) State.reset = .next u ∧
    (Instr.call 7).wellFormed = true ∧ validAddress State.reset.pushAddress := ⟨_, _, rfl, rfl, by decide, by decide⟩
theorem witness_FrameOfPopAndReturn : ∃ t u, exec (.pop 7) (base 0 255 []) = .next t ∧
    exec .ret (base 0 255 []) = .next u ∧ (Instr.pop 7).wellFormed = true ∧
    validAddress (base 0 255 []).popAddress := ⟨_, _, rfl, rfl, by decide, by decide⟩
theorem witness_RegisterErrorExactlyForIllegalOperands : (Instr.multiply 8 9).firstIllegal = some 8 ∧
    (Instr.multiply 7 8).firstIllegal = some 8 ∧ (Instr.pop 7).firstIllegal = none ∧ State.reset.faultCode ≠ 2 ∧
    ∃ t, exec (.pop 7) State.reset = .next t := ⟨by decide, by decide, by decide, by decide, _, rfl⟩
theorem witness_StepRaisesTheFirstApplicableError : (base 256 0 []).run = .running ∧ (base 256 0 []).pc.toNat ≤ 256 ∧
    (base 256 0 []).sp.toNat ≤ 256 ∧ (base 253 256 []).run = .running ∧ (base 253 256 []).pc.toNat ≤ 256 ∧
    (base 253 256 []).sp.toNat ≤ 256 := by decide
theorem witness_RaisingStepsArePrecise : ∃ t, State.reset.run = .running ∧ step State.reset = .next t ∧
    t.run = .faulted := ⟨_, rfl, rfl, rfl⟩
theorem witness_UnsupportedOperationIsUnreachable : ∃ t, step State.reset = .next t ∧ State.reset.faultCode ≠ 3 :=
  ⟨_, rfl, by decide⟩
theorem witness_HaltedExactlyAfterOpcodeOne : ∃ t, (base 253 256 [(253, 0x01)]).run = .running ∧
    step (base 253 256 [(253, 0x01)]) = .next t ∧ t.run = .halted := ⟨_, rfl, rfl, rfl⟩
theorem witness_OnlyFourInstructionsMoveTheStackPointer : ∃ t, (base 0 256 [(0, 0x45)]).run = .running ∧
    (base 0 256 [(0, 0x45)]).sp.toNat ≤ 256 ∧ step (base 0 256 [(0, 0x45)]) = .next t ∧
    t.sp ≠ (base 0 256 [(0, 0x45)]).sp := ⟨_, rfl, by decide, rfl, by decide⟩
theorem witness_OnlyPrintRegisterEmits : ∃ t, step (base 0 256 [(0, 0x47)]) = .next t ∧
    t.out ≠ (base 0 256 [(0, 0x47)]).out := ⟨_, rfl, by decide⟩
theorem witness_OnlyPushAndCallWriteMemory : ∃ t, step ((base 0 256 [(0, 0x45)]).setReg 0 1) = .next t ∧
    t.mem.read 255 ≠ ((base 0 256 [(0, 0x45)]).setReg 0 1).mem.read 255 := ⟨_, rfl, by decide⟩
theorem witness_OutputAndFaultRecordAreNeverRead : ∃ t, (base 0 256 [(0, 0x47)]).run = .running ∧
    step (base 0 256 [(0, 0x47)]) = .next t := ⟨_, rfl, rfl⟩
theorem witness_MemoryMeetsItsContract : (0 : Int) ≤ 0 ∧ (0 : Int) ≤ 255 ∧ (0 : Int) ≤ 255 ∧ (255 : Int) ≤ 255 ∧
    (-1 : Int) < 0 ∧ (255 : Int) < 256 := by decide
theorem witness_CanonicalMemoriesAreDeterminedByTheirReads : Memory.wf [(0, 1), (255, 2)] = true ∧ 255 < 256 ∧
    ∀ k, Memory.read k [(0, 1), (255, 2)] = Memory.read k [(0, 1), (255, 2)] := ⟨by decide, by decide, fun _ => rfl⟩
/-- V51 and its neighbours: the pushed cell is each cell of the fetch window, at the lowest and the highest `pc`. -/
theorem witness_PushedByteIsFetchedByTheNextStep : ∀ d : Fin 3, ∀ pc ∈ [0, 253],
    (base pc (pc + d + 1) [(pc, 0x45)]).run = .running ∧ (base pc (pc + d + 1) [(pc, 0x45)]).pc.toNat ≤ 253 ∧
    (base pc (pc + d + 1) [(pc, 0x45)]).mem.read (pc + 1) = 0 ∧ (0 : Byte).toNat < 8 ∧
    1 ≤ (base pc (pc + d + 1) [(pc, 0x45)]).sp.toNat ∧ (base pc (pc + d + 1) [(pc, 0x45)]).sp.toNat ≤ 256 ∧
    (base pc (pc + d + 1) [(pc, 0x45)]).mem.read pc ∈ ([0x45, 0x50] : List Byte) ∧ pc + d + 1 - 1 = pc + d := by decide
/-- CALL of register 7 and of register 2 onto its own operand byte; the next fetch is in range. -/
theorem witness_PushedByteIsFetchedByTheNextStep_call : ∀ a ∈ ([7, 2] : List Byte),
    (base 251 253 [(251, 0x50), (252, a)]).run = .running ∧ (base 251 253 [(251, 0x50), (252, a)]).pc.toNat ≤ 253 ∧
    (base 251 253 [(251, 0x50), (252, a)]).mem.read 252 = a ∧ a.toNat < 8 ∧
    (base 251 253 [(251, 0x50), (252, a)]).mem.read 251 ∈ ([0x45, 0x50] : List Byte) ∧
    (base 251 253 [(251, 0x50), (252, a)]).x[7].toNat ≤ 253 ∧ 251 + 2 ≤ 253 := by decide
theorem witness_StepKeepsTheInvariants : ∃ t, (base 0 255 [(0, 0x11), (255, 0xFE)]).Inv ∧
    step (base 0 255 [(0, 0x11), (255, 0xFE)]) = .next t := ⟨_, ⟨by decide, by decide, by decide, ⟨rfl, rfl⟩⟩, rfl⟩
theorem witness_ReachableStatesMeetTheInvariants : ∃ launched s, launch [0x01] = .next launched ∧
    Host.Core.run core 1 launched = .next s ∧ s.run = .halted := ⟨_, _, rfl, rfl, rfl⟩
theorem witness_HaltedRunNeverFails : ∃ t, Host.Core.run core 1 (base 0 256 [(0, 0x01)]) = .next t ∧ t.Final :=
  ⟨_, rfl, rfl⟩
theorem witness_OutputLengthCountsPrints : ∃ t, Host.Core.run core 1 (base 0 256 [(0, 0x47)]) = .next t ∧
    printsIn 1 (base 0 256 [(0, 0x47)]) = 1 := ⟨_, rfl, rfl⟩
theorem witness_DecodeGivesBackTheEncodedInstruction : encode .ret ++ [0xFF, 0xFE] = 0x11 :: 0xFF :: 0xFE :: [] := by
  decide
theorem witness_EncodeGivesBackTheDecodedBytes : decodeBytes [0x82, 0xFF, 0x00, 0x33] = .ok (.loadImmediate 0xFF 0, [0x33]) :=
  rfl

/-- E1 at the highest address. -/
def loadPrintState : State := base 250 256 [(250, 0x82), (251, 3), (252, 0xC8), (253, 0x47), (254, 3)]
theorem witness_LoadThenPrintOutputsTheByte : (3 : Byte).toNat < 8 ∧ loadPrintState.run = .running ∧
    loadPrintState.pc.toNat ≤ 250 ∧ loadPrintState.mem.read 250 = 0x82 ∧ loadPrintState.mem.read 251 = 3 ∧
    loadPrintState.mem.read 252 = 0xC8 ∧ loadPrintState.mem.read 253 = 0x47 ∧ loadPrintState.mem.read 254 = 3 := by
  decide

/-- P3's first twelve bytes, with the stack at its lowest and its highest. -/
def roundTripState (sp : Nat) : State :=
  base 243 sp [(243, 0x82), (244, 1), (245, 0x2A), (246, 0x45), (247, 1), (248, 0x82), (249, 1), (251, 0x46), (252, 1),
    (253, 0x47), (254, 1)]
theorem witness_StackRoundTripOutputsTheByte : (1 : Byte).toNat < 8 ∧ (roundTripState 1).run = .running ∧
    (roundTripState 1).pc.toNat + 10 ≤ 253 ∧
    (∀ k, k < 12 → some ((roundTripState 1).mem.read (243 + k)) =
      ([0x82, 1, 0x2A, 0x45, 1, 0x82, 1, 0x00, 0x46, 1, 0x47, 1] : List Byte)[k]?) ∧
    1 ≤ (roundTripState 1).sp.toNat ∧ (roundTripState 256).sp.toNat ≤ 256 ∧ (roundTripState 1).sp.toNat - 1 < 243 ∧
    243 + 12 ≤ (roundTripState 256).sp.toNat - 1 := by decide
theorem witness_PushThenPopCopiesARegister : (1 : Byte).toNat < 8 ∧ (2 : Byte).toNat < 8 ∧
    (base 251 256 [(251, 0x45), (252, 1), (253, 0x46), (254, 2)]).run = .running ∧
    (base 251 256 [(251, 0x45), (252, 1), (253, 0x46), (254, 2)]).pc.toNat ≤ 251 ∧
    (∀ k, k < 4 → some ((base 251 256 [(251, 0x45), (252, 1), (253, 0x46), (254, 2)]).mem.read (251 + k)) =
      ([0x45, 1, 0x46, 2] : List Byte)[k]?) ∧ 256 - 1 ≠ 251 + 2 ∧ 256 - 1 ≠ 251 + 3 := by decide
theorem witness_PopThenPushLoadsTheTopOfTheStack :
    (base 0 255 [(0, 0x46), (1, 1), (2, 0x45), (3, 1), (255, 9)]).Inv ∧ (1 : Byte).toNat < 8 ∧
    (base 0 255 [(0, 0x46), (1, 1), (2, 0x45), (3, 1), (255, 9)]).run = .running ∧
    (∀ k, k < 4 → some ((base 0 255 [(0, 0x46), (1, 1), (2, 0x45), (3, 1), (255, 9)]).mem.read (0 + k)) =
      ([0x46, 1, 0x45, 1] : List Byte)[k]?) := ⟨⟨by decide, by decide, by decide, ⟨rfl, rfl⟩⟩, by decide, rfl, by decide⟩

/-- E4's CALL and RETURN. -/
def callReturnState : State := (base 3 256 [(3, 0x50), (4, 1), (5, 0x01), (6, 0x11)]).setReg 1 6
theorem witness_CallThenReturnResumesAfterTheCall : (1 : Byte).toNat < 8 ∧ callReturnState.run = .running ∧
    callReturnState.pc.toNat ≤ 253 ∧ callReturnState.mem.read 3 = 0x50 ∧ callReturnState.mem.read 4 = 1 ∧
    (1 : Byte).toNat ≠ 2 ∧ 1 ≤ callReturnState.sp.toNat ∧ callReturnState.sp.toNat ≤ 256 ∧
    callReturnState.x[1].toNat ≤ 253 ∧ callReturnState.mem.read callReturnState.x[1].toNat = 0x11 ∧
    callReturnState.sp.toNat - 1 ≠ callReturnState.x[1].toNat := by decide
theorem witness_CallThenReturnResumesAfterTheCall_r2 : (2 : Byte).toNat < 8 ∧
    (base 3 256 [(3, 0x50), (4, 2)]).run = .running ∧ (base 3 256 [(3, 0x50), (4, 2)]).mem.read 3 = 0x50 ∧
    (base 3 256 [(3, 0x50), (4, 2)]).mem.read 4 = 2 ∧ (2 : Byte).toNat = 2 := by decide
theorem witness_PushThenReturnIsAJump : (0 : Byte).toNat < 8 ∧ (base 251 1 [(251, 0x45), (253, 0x11)]).run = .running ∧
    (base 251 1 [(251, 0x45), (253, 0x11)]).pc.toNat ≤ 251 ∧ (base 251 1 [(251, 0x45), (253, 0x11)]).mem.read 251 = 0x45 ∧
    (base 251 1 [(251, 0x45), (253, 0x11)]).mem.read 252 = 0 ∧ (base 251 1 [(251, 0x45), (253, 0x11)]).mem.read 253 = 0x11 ∧
    1 ≤ (base 251 1 [(251, 0x45), (253, 0x11)]).sp.toNat ∧ (base 251 1 [(251, 0x45), (253, 0x11)]).sp.toNat - 1 ≠ 251 + 2 := by
  decide

end Sys2Proof.Tests
end

