-- ==== Sys2Proof/Proofs/Invariants.lean ====
section
/-! The reachable-state invariants of R29: what a handled instruction leaves of them, that every step keeps them, that
`out` counts the completed PRINT_REGISTER instructions, and that all of it holds along the run of an image. -/

namespace Sys2Proof

/-- The instruction is a PRINT_REGISTER whose operand is legal: executed, it completes (R92). -/
def Instr.printsLegally : Instr → Bool
  | .printRegister a => legalRegister a
  | _ => false

end Sys2Proof

namespace Sys2Proof.Machine

variable {i : Instr} {s t u : State} {e : ErrorKind}

/-! ### The fault record -/

theorem recordOk_of_not_faulted (h : s.run ≠ .faulted) : s.RecordOk ↔ s.faultCode = 0 ∧ s.faultInfo = 0 := by
  unfold State.RecordOk
  split
  · contradiction
  · rfl
  · rfl

theorem faultCode_ne_zero_of_faulted (hs : s.RecordOk) (h : s.run = .faulted) : s.faultCode ≠ 0 := by
  simp only [State.RecordOk, h] at hs
  rcases hs with ⟨hc, -⟩ | ⟨hc, -⟩ | ⟨hc, -⟩ <;> rw [hc] <;> decide

/-- The `fault_code` clause of R29, which the model's record clause contains. -/
theorem faultCode_eq_zero_iff (hs : s.RecordOk) : s.faultCode = 0 ↔ s.run = .running ∨ s.run = .halted := by
  cases hr : s.run with
  | faulted => exact iff_of_false (faultCode_ne_zero_of_faulted hs hr) (by simp)
  | running => simp [((recordOk_of_not_faulted (by simp [hr])).mp hs).1]
  | halted => simp [((recordOk_of_not_faulted (by simp [hr])).mp hs).1]

theorem recordOk_raise_address {addr : Int} (h : addr = 256 ∨ addr = -1) : (s.raise (.address addr)).RecordOk := by
  refine .inl ⟨rfl, ?_⟩
  rcases h with rfl | rfl
  · exact .inl rfl
  · exact .inr rfl

theorem recordOk_raise_register {c : Byte} (h : 7 < c.toNat) : (s.raise (.register c)).RecordOk := by
  refine .inr (.inl ⟨rfl, ?_⟩)
  have hinfo : (s.raise (.register c)).faultInfo.toNat = c.toNat := zext9_toNat c
  omega

theorem recordOk_raise_unknownOpcode {op : Byte} (h : lookup op = none) :
    (s.raise (.unknownOpcode op)).RecordOk := by
  refine .inr (.inr ⟨rfl, ?_⟩)
  have hinfo : (s.raise (.unknownOpcode op)).faultInfo.toNat = op.toNat := zext9_toNat op
  rw [hinfo, BitVec.ofNat_toNat, BitVec.setWidth_eq]
  exact ⟨by omega, h⟩

/-- Of the reachable-state invariants, raising an error puts only the record at stake. -/
theorem inv_raise (hs : s.Inv) (he : (s.raise e).RecordOk) : (s.raise e).Inv :=
  ⟨hs.pc_le, hs.sp_le, hs.mem_wf, he⟩

/-! ### What an instruction raises -/

theorem pushAddress_of_invalid (hsp : s.sp.toNat ≤ 256) (h : ¬ validAddress s.pushAddress) : s.pushAddress = -1 := by
  rw [validAddress_pushAddress] at h
  simp only [State.pushAddress]
  omega

theorem popAddress_of_invalid (hsp : s.sp.toNat ≤ 256) (h : ¬ validAddress s.popAddress) : s.popAddress = 256 := by
  rw [validAddress_popAddress] at h
  simp only [State.popAddress]
  omega

/-- The errors of the instructions are among those R130 lists. -/
theorem Raises.recordOk_raise (h : Raises i s e) (hsp : s.sp.toNat ≤ 256) : (s.raise e).RecordOk := by
  cases h with
  | register _ _ c hc => exact recordOk_raise_register (firstIllegal_gt hc)
  | push _ _ _ hv => exact recordOk_raise_address (.inr (pushAddress_of_invalid hsp hv))
  | call _ _ _ hv => exact recordOk_raise_address (.inr (pushAddress_of_invalid hsp hv))
  | pop _ _ _ hv => exact recordOk_raise_address (.inl (popAddress_of_invalid hsp hv))
  | ret _ hv => exact recordOk_raise_address (.inl (popAddress_of_invalid hsp hv))

/-! ### What a handled instruction leaves -/

/-- No handler touches `run` or the fault record. -/
theorem Handled.record_eq (h : Handled i s u) :
    u.run = s.run ∧ u.faultCode = s.faultCode ∧ u.faultInfo = s.faultInfo := by
  cases h <;> exact ⟨rfl, rfl, rfl⟩

/-- R18: the stack pointer moves by one, and only where the access is in range. -/
theorem Handled.sp_le (h : Handled i s u) (hsp : s.sp.toNat ≤ 256) : u.sp.toNat ≤ 256 := by
  have down : (BitVec.ofNat 9 (s.sp.toNat - 1)).toNat ≤ 256 := by rw [BitVec.toNat_ofNat]; omega
  have up (hv : validAddress s.popAddress) : (BitVec.ofNat 9 (s.sp.toNat + 1)).toNat ≤ 256 := by
    rw [validAddress_popAddress] at hv
    rw [BitVec.toNat_ofNat]; omega
  cases h with
  | push => exact down
  | call => exact down
  | pop _ _ _ hv => exact up hv
  | ret _ hv => exact up hv
  | halt | loadImmediate | printRegister | multiply | add => exact hsp

theorem Handled.mem_wf (h : Handled i s u) (hmem : s.mem.wf = true) : u.mem.wf = true := by
  have pushed (hv : validAddress s.pushAddress) (v : Byte) : (s.mem.write (s.sp.toNat - 1) v).wf = true := by
    rw [validAddress_pushAddress] at hv
    exact wf_write (by omega) v hmem
  cases h with
  | push _ _ _ hv => exact pushed hv _
  | call _ _ _ hv => exact pushed hv _
  | halt | loadImmediate | printRegister | multiply | add | pop | ret => exact hmem

theorem pcDelta_le (o : Opcode) : o.row.pcDelta ≤ 3 := by cases o <;> decide

/-- The end of a step adds at most 3 to `pc` (R70, R74). -/
theorem finish_pc_le (o : Opcode) (h : u.pc.toNat ≤ 253) : (finish o u).pc.toNat ≤ 256 := by
  have hd := pcDelta_le o
  unfold finish
  split
  · rw [pcPlus_toNat u _ (by omega)]; omega
  · show u.pc.toNat ≤ 256
    omega

/-- R16: after a completed fetch `pc` either advances by at most 3 or takes the value of a byte. -/
theorem Handled.finish_pc_le (h : Handled i s u) (hpc : s.pc.toNat ≤ 253) :
    (finish i.opcode u).pc.toNat ≤ 256 := by
  have byte (v : Byte) : (zext9 v).toNat ≤ 256 := by rw [zext9_toNat]; omega
  cases h with
  | call => rw [Instr.opcode, finish_call]; exact byte _
  | ret => rw [Instr.opcode, finish_ret]; exact byte _
  | halt | loadImmediate | printRegister | multiply | add | push | pop => exact Machine.finish_pc_le _ hpc

theorem finish_run_ne_faulted (o : Opcode) (h : u.run = .running) : (finish o u).run ≠ .faulted := by
  unfold finish
  split <;> simp [h]

/-- A handled instruction leaves the fault record as it was while RUNNING: both components 0 (R20). -/
theorem Handled.finish_recordOk (h : Handled i s u) (hr : s.run = .running) (hs : s.RecordOk) :
    (finish i.opcode u).RecordOk := by
  obtain ⟨hrun, hcode, hinfo⟩ := h.record_eq
  rw [recordOk_of_not_faulted (by simp [hr])] at hs
  rw [recordOk_of_not_faulted (finish_run_ne_faulted _ (hrun.trans hr))]
  simpa [hcode, hinfo] using hs

theorem Handled.finish_inv (h : Handled i s u) (hs : s.Inv) (hr : s.run = .running) (hpc : s.pc.toNat ≤ 253) :
    (finish i.opcode u).Inv where
  pc_le := h.finish_pc_le hpc
  sp_le := by simpa using h.sp_le hs.sp_le
  mem_wf := by simpa using h.mem_wf hs.mem_wf
  record := h.finish_recordOk hr hs.record

/-! ### Every step keeps the invariants -/

theorem exec_keeps_inv (hs : s.Inv) (hr : s.run = .running) (hpc : s.pc.toNat ≤ 253) (h : exec i s = .next t) :
    t.Inv := by
  rcases exec_cases h with ⟨u, hu, rfl⟩ | ⟨e, he, rfl⟩
  · exact hu.finish_inv hs hr hpc
  · exact inv_raise hs (he.recordOk_raise hs.sp_le)

theorem step_keeps_inv (hs : s.Inv) (h : step s = .next t) : t.Inv := by
  rcases step_cases h with ⟨-, rfl⟩ | ⟨-, -, rfl⟩ | ⟨-, -, hl, rfl⟩ | ⟨hr, hpc, o, -, hx⟩
  · exact hs
  · have hpc := hs.pc_le
    exact inv_raise hs (recordOk_raise_address (.inl (by omega)))
  · exact inv_raise hs (recordOk_raise_unknownOpcode hl)
  · exact exec_keeps_inv hs hr hpc hx

theorem run_keeps_inv {k : Nat} (hs : s.Inv) (h : Host.Core.run core k s = .next t) : t.Inv :=
  run_keeps (fun _ _ => step_keeps_inv) k hs h

/-! ### The output counts the completed PRINT_REGISTER instructions -/

theorem completesPrint_of_not_running (h : s.run ≠ .running) : completesPrint s = false := by
  unfold completesPrint
  split
  · contradiction
  · rfl

theorem completesPrint_of_fetch_error (h : fetchInstr s = .error e) : completesPrint s = false := by
  unfold completesPrint
  rw [h]
  split
  · next heq => cases heq
  · rfl

theorem completesPrint_of_fetch_ok (hr : s.run = .running) (h : fetchInstr s = .ok i) :
    completesPrint s = i.printsLegally := by
  cases i <;> simp only [completesPrint, hr, h, Instr.printsLegally]

theorem Handled.out_length (h : Handled i s u) :
    u.out.length = s.out.length + if i.printsLegally then 1 else 0 := by
  cases h with
  | printRegister a _ ha => simp [Instr.printsLegally, legalRegister_iff.mpr ha]
  | halt | loadImmediate | multiply | add | push | pop | call | ret => rfl

theorem Raises.printsLegally_eq_false (h : Raises i s e) : i.printsLegally = false := by
  cases h with
  | register _ _ c hc =>
    cases i with
    | printRegister a =>
      obtain ⟨-, ha⟩ := firstIllegal_one hc
      rw [Instr.printsLegally, ← Bool.not_eq_true, legalRegister_iff]
      omega
    | halt | loadImmediate | multiply | add | push | pop | call | ret => rfl
  | push | call | pop | ret => rfl

theorem exec_out_length (h : exec i s = .next t) :
    t.out.length = s.out.length + if i.printsLegally then 1 else 0 := by
  rcases exec_cases h with ⟨u, hu, rfl⟩ | ⟨e, he, rfl⟩
  · simpa using hu.out_length
  · simp [he.printsLegally_eq_false]

theorem step_out_length (h : step s = .next t) :
    t.out.length = s.out.length + if completesPrint s then 1 else 0 := by
  by_cases hr : s.run = .running
  · cases hf : fetchInstr s with
    | error e =>
      rw [step_of_fetch_error hr hf] at h
      cases h
      simp [completesPrint_of_fetch_error hf]
    | ok i =>
      rw [step_of_fetch_ok hr hf] at h
      rw [completesPrint_of_fetch_ok hr hf]
      exact exec_out_length h
  · rw [step_of_not_running hr] at h
    cases h
    simp [completesPrint_of_not_running hr]

@[simp] theorem printsIn_zero : printsIn 0 s = 0 := rfl

theorem printsIn_succ_of_next (k : Nat) (h : step s = .next t) :
    printsIn (k + 1) s = (if completesPrint s then 1 else 0) + printsIn k t := by
  rw [printsIn, h]

/-- R29: from any state, `out` grows by the completed PRINT_REGISTER instructions. -/
theorem run_out_length {k : Nat} (h : Host.Core.run core k s = .next t) :
    t.out.length = s.out.length + printsIn k s := by
  induction k generalizing s with
  | zero => simp [Host.Outcome.next.inj h]
  | succ k ih =>
    obtain ⟨u, hu, hk⟩ := run_succ_cases h
    rw [ih hk, step_out_length hu, printsIn_succ_of_next k hu, Nat.add_assoc]

/-! ### The launch state -/

theorem launch_cases {image : List Byte} (h : launch image = .next s) :
    image.length ≤ 256 ∧ s = { State.reset with mem := writeImage 0 image [] } := by
  unfold launch at h
  split at h
  · next hl => exact ⟨hl, (Host.Outcome.next.inj h).symm⟩
  · cases h

/-- R29 at the start of a run: the launch state meets the invariants. -/
theorem launch_inv {image : List Byte} (h : launch image = .next s) : s.Inv := by
  obtain ⟨hl, rfl⟩ := launch_cases h
  exact
    { pc_le := Nat.zero_le _
      sp_le := Nat.le_refl _
      mem_wf := wf_writeImage image 0 (by omega) wf_nil
      record := ⟨rfl, rfl⟩ }

/-- No byte has been emitted at the launch (R161, R164). -/
theorem launch_out {image : List Byte} (h : launch image = .next s) : s.out = [] := by
  obtain ⟨-, rfl⟩ := launch_cases h
  rfl

/-! ### Every reachable state -/

/-- Settles O39: the invariants hold at the launch and every step keeps them; the output is counted along the run. -/
theorem reachableStatesMeetTheInvariants : Obligations.ReachableStatesMeetTheInvariants := by
  intro image launched s k hl hk
  have hs : s.Inv := run_keeps_inv (launch_inv hl) hk
  have hout : s.out.length = printsIn k launched := by simpa [launch_out hl] using run_out_length hk
  exact ⟨fun i => by omega, fun a => by omega, hs.pc_le, hs.sp_le,
    faultCode_eq_zero_iff hs.record, hout, hs⟩

end Sys2Proof.Machine
end

