-- ==== Sys2Proof/Proofs/MemoryContract.lean ====
section
/-! The memory contract of R30: what the port does at an address in range and at any other integer. -/

namespace Sys2Proof.Machine

/-- The addresses the port refuses lie on the two sides of its range (R30). -/
theorem not_validAddress_of_out_of_range {addr : Int} (h : addr < 0 ∨ 255 < addr) : ¬ validAddress addr := by
  simp only [validAddress]
  omega

/-- Settles O34: a write in range replaces `mem` alone, and there the one cell; the range check refuses every other
address before memory is read or written. -/
theorem memoryMeetsItsContract : Obligations.MemoryMeetsItsContract := by
  intro addr v s
  constructor
  · intro hlo hhi
    have hv : validAddress addr := ⟨hlo, hhi⟩
    exact ⟨memRead_of_valid hv s, _, memWrite_of_valid hv v s, rfl, read_write_self addr.toNat v s.mem,
      fun k hk => read_write_of_ne hk v s.mem⟩
  · intro hout
    have hv : ¬ validAddress addr := not_validAddress_of_out_of_range hout
    exact ⟨memRead_of_invalid hv s, memWrite_of_invalid hv v s⟩

end Sys2Proof.Machine
end

