-- ==== Sys2Proof/Proofs/CycleAndHalt.lean ====
section
/-! The instruction cycle of 40_cycle_and_halt.md: a fetch that succeeds or raises AddressError(256) (R71), an opcode
byte outside the table (R72), and HALT (R76). -/

namespace Sys2Proof.Machine

variable {s : State}

/-! ### The fetch -/

/-- R71: at `pc` 254 to 256 the first address out of range is 256 in all three cases. -/
theorem first_address_out_of_range (h : s.pc.toNat ≤ 256) : max (s.pc.toNat : Int) 256 = 256 :=
  max_eq_right (by omega)

/-- The fault record of AddressError(256): code 1, and 256 in nine bits (R130, R132). -/
theorem raise_address_256 :
    s.raise (.address 256) = { s with run := .faulted, faultCode := 1, faultInfo := 0x100 } := rfl

/-- R71: a RUNNING machine with `pc` 254 to 256 faults in the fetch, whatever the bytes in range. -/
theorem step_of_fetch_out_of_range (hr : s.run = .running) (hlo : 254 ≤ s.pc.toNat) (hhi : s.pc.toNat ≤ 256) :
    step s = .next { s with run := .faulted, faultCode := 1, faultInfo := 0x100 } := by
  rw [step_of_fetch_error hr (fetchInstr_of_gt hlo), first_address_out_of_range hhi, raise_address_256]

/-- Settles O7: up to 253 all three reads are in range; from 254 to 256 the first one out of range is at 256. -/
theorem fetchReadsThreeBytesOrRaises : Obligations.FetchReadsThreeBytesOrRaises := by
  intro s hr
  refine ⟨fetch_of_le, fun hlo hhi => ⟨?_, step_of_fetch_out_of_range hr hlo hhi⟩⟩
  rw [fetch_of_gt hlo, first_address_out_of_range hhi]

/-! ### The look-up -/

/-- Zero extension keeps the value of a byte (R7). -/
theorem zext9_eq_ofNat (v : Byte) : zext9 v = BitVec.ofNat 9 v.toNat :=
  (BitVec.ofNat_toNat 9 v).symm

/-- The fault record of UnknownOpcodeError: code 4 and the opcode byte (R130, R131). -/
theorem raise_unknownOpcode (op : Byte) :
    s.raise (.unknownOpcode op) =
      { s with run := .faulted, faultCode := 4, faultInfo := BitVec.ofNat 9 op.toNat } := by
  rw [← zext9_eq_ofNat]
  rfl

/-- Settles O9: the look-up of a byte outside the nine finds no row, and the fetched step raises with that byte. -/
theorem unknownOpcodeRaises : Obligations.UnknownOpcodeRaises := by
  intro s hr hpc hop
  have hlookup : lookup (s.mem.read s.pc.toNat) = none := lookup_eq_none_iff.mpr hop
  rw [step_of_fetch_error hr (fetchInstr_of_unknown hpc hlookup), raise_unknownOpcode]

/-! ### HALT -/

/-- The effect of HALT: its handler changes nothing, and the end of the step sets `run` alone (R76). -/
theorem exec_halt (s : State) : exec .halt s = .next { s with run := .halted } := by
  rw [exec_of_handled (.halt s), Instr.opcode, finish_halt]

/-- HALT's is the one row of the opcode table that does not continue (R56, R76). -/
theorem continues_eq_false_iff (o : Opcode) : o.row.continues = false ↔ o = .halt := by
  cases o <;> decide

/-- Settles O12: HALT's own effect, its row of the table, and the fetch that faults before a HALT above 253. -/
theorem haltOnlyHalts : Obligations.HaltOnlyHalts :=
  ⟨exec_halt, continues_eq_false_iff, fun _ => step_of_fetch_out_of_range⟩

end Sys2Proof.Machine
end

