-- ==== Sys2Proof/Proofs/LoadPrint.lean ====
section
/-! LOAD_IMMEDIATE and PRINT_REGISTER of 41_load_print.md: each one's effect and its illegal register (R91, R92), and
the two in sequence (R94). -/

namespace Sys2Proof.Machine

variable {i : Instr} {s : State} {a b : Byte}

/-! ### An illegal register operand -/

/-- The fault record of RegisterError: code 2 and the whole operand byte (R130, R133). -/
theorem raise_register (s : State) (c : Byte) :
    s.raise (.register c) =
      { s with run := .faulted, faultCode := 2, faultInfo := BitVec.ofNat 9 c.toNat } := by
  rw [← zext9_eq_ofNat]
  rfl

/-- A first register operand above 7 is the one reported, whatever operands follow (R73). -/
theorem firstIllegal_of_gt {rest : List Byte} (hi : i.registerOperands = a :: rest) (ha : 7 < a.toNat) :
    i.firstIllegal = some a := by
  have hillegal : legalRegister a = false := by
    rw [← Bool.not_eq_true, legalRegister_iff]
    omega
  rw [Instr.firstIllegal, hi, List.find?_cons_of_pos (by rw [hillegal]; rfl)]

/-- With a first register operand above 7, only `run` and the fault record change (R73, R133, R140). -/
theorem exec_of_illegal {rest : List Byte} (hi : i.registerOperands = a :: rest) (ha : 7 < a.toNat) (s : State) :
    exec i s = .next { s with run := .faulted, faultCode := 2, faultInfo := BitVec.ofNat 9 a.toNat } := by
  rw [exec_of_raises (.register i s a (firstIllegal_of_gt hi ha)), raise_register]

/-! ### The effect of each instruction -/

theorem exec_loadImmediate (ha : a.toNat < 8) (b : Byte) (s : State) :
    exec (.loadImmediate a b) s =
      .next { s with x := s.x.set a.toNat b ha, pc := BitVec.ofNat 9 (s.pc.toNat + 3) } := by
  rw [exec_of_handled (.loadImmediate a b s ha), Instr.opcode, finish_of_continues _ _ rfl]
  rfl

theorem exec_printRegister (ha : a.toNat < 8) (s : State) :
    exec (.printRegister a) s =
      .next { s with out := s.out ++ [s.x[a.toNat]], pc := BitVec.ofNat 9 (s.pc.toNat + 2) } := by
  rw [exec_of_handled (.printRegister a s ha), Instr.opcode, finish_of_continues _ _ rfl]
  rfl

/-- Settles O13: a legal register is written, an illegal one is the instruction's first illegal operand. -/
theorem loadImmediateWritesItsByte : Obligations.LoadImmediateWritesItsByte :=
  fun _ b s _ => ⟨fun ha => exec_loadImmediate ha b s, fun ha => exec_of_illegal rfl ha s⟩

/-- Settles O14: a legal register is emitted, an illegal one is the instruction's first illegal operand. -/
theorem printRegisterEmitsOneByte : Obligations.PrintRegisterEmitsOneByte :=
  fun _ s _ => ⟨fun ha => exec_printRegister ha s, fun ha => exec_of_illegal rfl ha s⟩

/-! ### The two in sequence -/

/-- A RUNNING machine with opcode `o` at `pc` up to 253 executes it with the two bytes that follow (R71, R72, R75). -/
theorem step_of_code {o : Opcode} (hr : s.run = .running) (hpc : s.pc.toNat ≤ 253)
    (hop : s.mem.read s.pc.toNat = o.row.code) :
    step s = exec (o.assemble (s.mem.read (s.pc.toNat + 1)) (s.mem.read (s.pc.toNat + 2))) s :=
  step_of_fetch_ok hr (fetchInstr_of_ok hpc (by rw [hop, decode_code]))

theorem step_loadImmediate (hr : s.run = .running) (hpc : s.pc.toNat ≤ 253)
    (hop : s.mem.read s.pc.toNat = 0x82) (hra : s.mem.read (s.pc.toNat + 1) = a)
    (hrb : s.mem.read (s.pc.toNat + 2) = b) (ha : a.toNat < 8) :
    step s = .next { s with x := s.x.set a.toNat b ha, pc := BitVec.ofNat 9 (s.pc.toNat + 3) } := by
  rw [step_of_code (o := .loadImmediate) hr hpc hop, hra, hrb, Opcode.assemble, exec_loadImmediate ha]

theorem step_printRegister (hr : s.run = .running) (hpc : s.pc.toNat ≤ 253)
    (hop : s.mem.read s.pc.toNat = 0x47) (hra : s.mem.read (s.pc.toNat + 1) = a) (ha : a.toNat < 8) :
    step s = .next { s with out := s.out ++ [s.x[a.toNat]], pc := BitVec.ofNat 9 (s.pc.toNat + 2) } := by
  rw [step_of_code (o := .printRegister) hr hpc hop, hra, Opcode.assemble, exec_printRegister ha]

/-- A run of two steps that answer a next state each. -/
theorem run_two_of_next {t u : State} (hfirst : step s = .next t) (hsecond : step t = .next u) :
    Host.Core.run core 2 s = .next u :=
  (run_succ_of_next 1 hfirst).trans (run_succ_of_next 0 hsecond)

/-- Settles O46: the load keeps memory and moves `pc` by 3 without a wrap, so the second step fetches the print,
which reads the register just written. -/
theorem loadThenPrintOutputsTheByte : Obligations.LoadThenPrintOutputsTheByte := by
  intro s r v hr hrun hpc hload hreg hval hprint hreg'
  have hpc3 : (BitVec.ofNat 9 (s.pc.toNat + 3)).toNat = s.pc.toNat + 3 := pcPlus_toNat s 3 (by omega)
  have hfirst := step_loadImmediate hrun (by omega) hload hreg hval hr
  have hsecond := step_printRegister (s := { s with x := s.x.set r.toNat v hr, pc := BitVec.ofNat 9 (s.pc.toNat + 3) })
    hrun (by rw [hpc3]; omega) (by rw [hpc3]; exact hprint) (by rw [hpc3]; exact hreg') hr
  rw [run_two_of_next hfirst hsecond]
  simp only [hpc3, Vector.getElem_set_self]

end Sys2Proof.Machine
end

