-- ==== Sys2Proof/Proofs/Alu.lean ====
section
/-! MULTIPLY and ADD of 42_alu.md: the effect they share and the report of an illegal second register (R102, R103). -/

namespace Sys2Proof.Machine

variable {i : Instr} {s : State} {a b : Byte}

/-! ### An illegal second register operand -/

/-- A second register operand above 7 is the one reported when the first is legal (R73). -/
theorem firstIllegal_of_legal_of_gt {rest : List Byte} (hi : i.registerOperands = a :: b :: rest)
    (ha : a.toNat ≤ 7) (hb : 7 < b.toNat) : i.firstIllegal = some b := by
  have hlegal : legalRegister a = true := legalRegister_iff.mpr (by omega)
  have hillegal : legalRegister b = false := by
    rw [← Bool.not_eq_true, legalRegister_iff]
    omega
  rw [Instr.firstIllegal, hi, List.find?_cons_of_neg (by simp [hlegal]), List.find?_cons_of_pos (by simp [hillegal])]

/-- With a legal first and an illegal second register operand, only `run` and the fault record change
(R73, R133, R140). -/
theorem exec_of_legal_of_illegal {rest : List Byte} (hi : i.registerOperands = a :: b :: rest)
    (ha : a.toNat ≤ 7) (hb : 7 < b.toNat) (s : State) :
    exec i s = .next { s with run := .faulted, faultCode := 2, faultInfo := BitVec.ofNat 9 b.toNat } := by
  rw [exec_of_raises (.register i s b (firstIllegal_of_legal_of_gt hi ha hb)), raise_register]

/-! ### The effect of each instruction -/

/-- What an instruction answers whose handler runs the arithmetic unit: the first register takes the full result
modulo 256, both operands read before the write, and `pc` advances by the opcode's row (R74, R100). -/
theorem exec_of_handled_aluRun {op : AluSelect} {ha : a.toNat < 8} {hb : b.toNat < 8}
    (h : Handled i s (aluRun op ⟨a.toNat, ha⟩ ⟨b.toNat, hb⟩ s)) (hc : i.opcode.row.continues = true) :
    exec i s = .next { s with
      x := s.x.set a.toNat (BitVec.ofNat 8 (aluFull op s.x[a.toNat].toNat s.x[b.toNat].toNat % 256)) ha
      pc := BitVec.ofNat 9 (s.pc.toNat + i.opcode.row.pcDelta) } := by
  rw [exec_of_handled h, finish_of_continues _ _ hc]
  rfl

theorem exec_multiply (ha : a.toNat < 8) (hb : b.toNat < 8) (s : State) :
    exec (.multiply a b) s = .next { s with
      x := s.x.set a.toNat (BitVec.ofNat 8 (s.x[a.toNat].toNat * s.x[b.toNat].toNat % 256)) ha
      pc := BitVec.ofNat 9 (s.pc.toNat + 3) } :=
  exec_of_handled_aluRun (.multiply a b s ha hb) rfl

theorem exec_add (ha : a.toNat < 8) (hb : b.toNat < 8) (s : State) :
    exec (.add a b) s = .next { s with
      x := s.x.set a.toNat (BitVec.ofNat 8 ((s.x[a.toNat].toNat + s.x[b.toNat].toNat) % 256)) ha
      pc := BitVec.ofNat 9 (s.pc.toNat + 3) } :=
  exec_of_handled_aluRun (.add a b s ha hb) rfl

/-- Settles O15: legal registers give the unit's product; otherwise the first illegal operand is reported. -/
theorem multiplyWritesTheProductModulo256 : Obligations.MultiplyWritesTheProductModulo256 :=
  fun _ _ s _ => ⟨fun ha hb => exec_multiply ha hb s, fun ha => exec_of_illegal rfl ha s,
    fun ha hb => exec_of_legal_of_illegal rfl ha hb s⟩

/-- Settles O16: legal registers give the unit's sum; otherwise the first illegal operand is reported. -/
theorem addWritesTheSumModulo256 : Obligations.AddWritesTheSumModulo256 :=
  fun _ _ s _ => ⟨fun ha hb => exec_add ha hb s, fun ha => exec_of_illegal rfl ha s,
    fun ha hb => exec_of_legal_of_illegal rfl ha hb s⟩

end Sys2Proof.Machine
end

