-- ==== Sys2Proof/Proofs/Stack.lean ====
section
/-! PUSH and POP of 43_stack.md: each one's effect and what it raises (R111, R112), and the stack round trip (R113),
as a run over the bytes that memory holds. -/

namespace Sys2Proof.Machine

variable {i : Instr} {s t : State} {a : Byte}

/-! ### PUSH -/

theorem exec_push (ha : a.toNat < 8) (hlo : 1 ≤ s.sp.toNat) (hhi : s.sp.toNat ≤ 256) :
    exec (.push a) s = .next { s with
      sp := BitVec.ofNat 9 (s.sp.toNat - 1), pc := BitVec.ofNat 9 (s.pc.toNat + 2)
      mem := s.mem.write (s.sp.toNat - 1) s.x[a.toNat] } := by
  have hv : validAddress s.pushAddress := (validAddress_pushAddress s).mpr ⟨hlo, hhi⟩
  rw [exec_of_handled (.push a s ha hv), Instr.opcode, finish_of_continues _ _ rfl]
  rfl

/-- PUSH onto a full stack raises AddressError(-1), which is `0x1FF` in nine bits (R111, R132). -/
theorem exec_push_of_full (ha : a.toNat < 8) (hsp : s.sp.toNat = 0) :
    exec (.push a) s = .next { s with run := .faulted, faultCode := 1, faultInfo := 0x1FF } := by
  have hv : ¬ validAddress s.pushAddress := by rw [validAddress_pushAddress]; omega
  rw [exec_of_raises (.push a s ha hv), pushAddress_of_invalid (by omega) hv]
  rfl

/-- Settles O17: with room the write is of the one cell below `sp`; a full stack and an illegal register raise. -/
theorem pushStoresAtTheNewStackPointer : Obligations.PushStoresAtTheNewStackPointer := by
  intro a s _ hhi
  refine ⟨fun ha hlo => ?_, fun ha hfull => exec_push_of_full (by omega) hfull, fun ha => exec_of_illegal rfl ha s⟩
  exact ⟨_, exec_push ha hlo hhi, rfl, read_write_self _ _ _, fun k hk => read_write_of_ne hk _ _⟩

/-! ### POP -/

theorem exec_pop (ha : a.toNat < 8) (hsp : s.sp.toNat ≤ 255) :
    exec (.pop a) s = .next { s with
      x := s.x.set a.toNat (s.mem.read s.sp.toNat) ha
      sp := BitVec.ofNat 9 (s.sp.toNat + 1), pc := BitVec.ofNat 9 (s.pc.toNat + 2) } := by
  have hv : validAddress s.popAddress := (validAddress_popAddress s).mpr hsp
  rw [exec_of_handled (.pop a s ha hv), Instr.opcode, finish_of_continues _ _ rfl]
  rfl

/-- POP from the empty stack raises AddressError(256) (R112, R132). -/
theorem exec_pop_of_empty (ha : a.toNat < 8) (hsp : s.sp.toNat = 256) :
    exec (.pop a) s = .next { s with run := .faulted, faultCode := 1, faultInfo := 0x100 } := by
  have hv : ¬ validAddress s.popAddress := by rw [validAddress_popAddress]; omega
  rw [exec_of_raises (.pop a s ha hv), popAddress_of_invalid (by omega) hv, raise_address_256]

/-- Settles O18: below 256 the cell at `sp` is read and memory is kept; the empty stack and an illegal register
raise. -/
theorem popReadsAtTheOldStackPointer : Obligations.PopReadsAtTheOldStackPointer :=
  fun _ s _ _ => ⟨fun ha hsp => exec_pop ha hsp, fun ha hempty => exec_pop_of_empty (by omega) hempty,
    fun ha => exec_of_illegal rfl ha s⟩

/-! ### Code in memory -/

/-- The cells from address `p` on hold the bytes of `code`, in ascending order (R50). -/
def Memory.Holds (p : Nat) (code : List Byte) (m : Memory) : Prop :=
  ∀ k, k < code.length → some (m.read (p + k)) = code[k]?

section
variable {p : Nat} {code rest : List Byte} {m : Memory}

theorem Memory.Holds.read_eq (h : m.Holds p code) {k : Nat} {v : Byte} (hk : code[k]? = some v) :
    m.read (p + k) = v :=
  Option.some.inj ((h k (List.getElem?_eq_some_iff.mp hk).1).trans hk)

theorem Memory.Holds.append_left (h : m.Holds p (code ++ rest)) : m.Holds p code := by
  intro k hk
  rw [h k (by rw [List.length_append]; omega), List.getElem?_append_left hk]

theorem Memory.Holds.append_right (h : m.Holds p (code ++ rest)) : m.Holds (p + code.length) rest := by
  intro k hk
  rw [Nat.add_assoc, h (code.length + k) (by rw [List.length_append]; omega),
    List.getElem?_append_right (Nat.le_add_right _ _), Nat.add_sub_cancel_left]

/-- A write outside the code leaves it as it was. -/
theorem Memory.Holds.write {j : Nat} (h : m.Holds p code) (hj : j < p ∨ p + code.length ≤ j) (v : Byte) :
    (m.write j v).Holds p code := by
  intro k hk
  rw [read_write_of_ne (by omega), h k hk]

end

/-- A RUNNING machine whose `pc`, up to 253, stands at the encoding of an instruction executes that instruction,
whatever bytes follow (R51, R71, R72, R75). -/
theorem step_of_holds_encode (hr : s.run = .running) (hpc : s.pc.toNat ≤ 253)
    (h : s.mem.Holds s.pc.toNat (encode i)) : step s = exec i s := by
  rw [step_of_code hr hpc (h.read_eq (k := 0) rfl)]
  cases i with
  | halt => rfl
  | ret => rfl
  | loadImmediate a b | multiply a b | add a b =>
    rw [h.read_eq (k := 1) rfl, h.read_eq (k := 2) rfl]; rfl
  | printRegister a | push a | pop a | call a =>
    rw [h.read_eq (k := 1) rfl]; rfl

/-! ### The stack round trip -/

/-- A run of `j` steps, then `k` more. -/
theorem run_add_of_next {j : Nat} (k : Nat) (h : Host.Core.run core j s = .next t) :
    Host.Core.run core (j + k) s = Host.Core.run core k t := by
  induction j generalizing s with
  | zero => rw [Nat.zero_add, Host.Outcome.next.inj h]
  | succ j ih =>
    obtain ⟨u, hu, hrest⟩ := run_succ_cases h
    rw [Nat.add_right_comm, run_succ_of_next (j + k) hu, ih hrest]

/-- The first half of R113: a register is loaded and its byte pushed. -/
theorem run_load_push {r v : Byte} (hr : r.toNat < 8) (hrun : s.run = .running) (hpc : s.pc.toNat + 3 ≤ 253)
    (hlo : 1 ≤ s.sp.toNat) (hhi : s.sp.toNat ≤ 256)
    (hcode : s.mem.Holds s.pc.toNat (encode (.loadImmediate r v) ++ encode (.push r))) :
    Host.Core.run core 2 s = .next { s with
      x := s.x.set r.toNat v hr, pc := BitVec.ofNat 9 (s.pc.toNat + 5)
      sp := BitVec.ofNat 9 (s.sp.toNat - 1), mem := s.mem.write (s.sp.toNat - 1) v } := by
  have hpc3 : (BitVec.ofNat 9 (s.pc.toNat + 3)).toNat = s.pc.toNat + 3 := pcPlus_toNat s 3 (by omega)
  have hload := (step_of_holds_encode hrun (by omega) hcode.append_left).trans (exec_loadImmediate hr v s)
  have hpush := (step_of_holds_encode (i := .push r)
    (s := { s with x := s.x.set r.toNat v hr, pc := BitVec.ofNat 9 (s.pc.toNat + 3) })
    hrun (by rw [hpc3]; omega) (by rw [hpc3]; exact hcode.append_right)).trans (exec_push hr hlo hhi)
  rw [run_two_of_next hload hpush]
  simp only [hpc3, Vector.getElem_set_self]

/-- The second half of R113: the register is overwritten, gets the top of the stack back, and is printed. -/
theorem run_load_pop_print {r w : Byte} (hr : r.toNat < 8) (hrun : s.run = .running) (hpc : s.pc.toNat + 5 ≤ 253)
    (hsp : s.sp.toNat ≤ 255)
    (hcode : s.mem.Holds s.pc.toNat (encode (.loadImmediate r w) ++ (encode (.pop r) ++ encode (.printRegister r)))) :
    Host.Core.run core 3 s = .next { s with
      x := s.x.set r.toNat (s.mem.read s.sp.toNat) hr, pc := BitVec.ofNat 9 (s.pc.toNat + 7)
      sp := BitVec.ofNat 9 (s.sp.toNat + 1), out := s.out ++ [s.mem.read s.sp.toNat] } := by
  have hpc3 : (BitVec.ofNat 9 (s.pc.toNat + 3)).toNat = s.pc.toNat + 3 := pcPlus_toNat s 3 (by omega)
  have hpc5 : (BitVec.ofNat 9 (s.pc.toNat + 5)).toNat = s.pc.toNat + 5 := pcPlus_toNat s 5 (by omega)
  have hload := (step_of_holds_encode hrun (by omega) hcode.append_left).trans (exec_loadImmediate hr w s)
  have hpop := (step_of_holds_encode (i := .pop r)
    (s := { s with x := s.x.set r.toNat w hr, pc := BitVec.ofNat 9 (s.pc.toNat + 3) })
    hrun (by rw [hpc3]; omega) (by rw [hpc3]; exact hcode.append_right.append_left)).trans (exec_pop hr hsp)
  simp only [hpc3, Vector.set_set] at hpop
  have hprint := (step_of_holds_encode (i := .printRegister r)
    (s := { s with
      x := s.x.set r.toNat (s.mem.read s.sp.toNat) hr, sp := BitVec.ofNat 9 (s.sp.toNat + 1)
      pc := BitVec.ofNat 9 (s.pc.toNat + 5) })
    hrun (by rw [hpc5]; omega) (by rw [hpc5]; exact hcode.append_right.append_right)).trans (exec_printRegister hr _)
  rw [run_succ_of_next 2 hload, run_two_of_next hpop hprint]
  simp only [hpc5, Vector.getElem_set_self]

/-- Settles O47: the push lands outside the twelve bytes, so the second half is still in memory when it is fetched,
and its pop reads the cell that was pushed. -/
theorem stackRoundTripOutputsTheByte : Obligations.StackRoundTripOutputsTheByte := by
  intro s r v hr hrun hpc hbytes hlo hhi houtside
  have hcode : s.mem.Holds s.pc.toNat ((encode (.loadImmediate r v) ++ encode (.push r)) ++
      (encode (.loadImmediate r 0) ++ (encode (.pop r) ++ encode (.printRegister r)))) := hbytes
  have hpc5 : (BitVec.ofNat 9 (s.pc.toNat + 5)).toNat = s.pc.toNat + 5 := pcPlus_toNat s 5 (by omega)
  have hsp1 : (BitVec.ofNat 9 (s.sp.toNat - 1)).toNat = s.sp.toNat - 1 := by
    rw [BitVec.toNat_ofNat]
    exact Nat.mod_eq_of_lt (by omega)
  have hback : BitVec.ofNat 9 (s.sp.toNat - 1 + 1) = s.sp := by
    rw [Nat.sub_add_cancel hlo, BitVec.ofNat_toNat, BitVec.setWidth_eq]
  have hfirst := run_load_push hr hrun (by omega) hlo hhi hcode.append_left
  have hsecond := run_load_pop_print (r := r) (w := 0)
    (s := { s with
      x := s.x.set r.toNat v hr, pc := BitVec.ofNat 9 (s.pc.toNat + 5)
      sp := BitVec.ofNat 9 (s.sp.toNat - 1), mem := s.mem.write (s.sp.toNat - 1) v })
    hr hrun (by rw [hpc5]; omega) (by rw [hsp1]; omega)
    (by rw [hpc5]; exact (hcode.write houtside v).append_right)
  simp only [hpc5, hsp1, hback, read_write_self, Vector.set_set] at hsecond
  exact ⟨_, (run_add_of_next 3 hfirst).trans hsecond, rfl, read_write_self _ _ _,
    fun k hk => read_write_of_ne hk _ _⟩

end Sys2Proof.Machine
end

