-- ==== Sys2Proof/Proofs/CallReturn.lean ====
section
/-! CALL and RETURN of 44_call_return.md: each one's effect and what it raises (R121, R122, R123), and the two in
sequence (R126). -/

namespace Sys2Proof.Machine

variable {s : State} {a : Byte}

/-! ### CALL -/

/-- Where CALL goes: the register is read after the return address went into register 2 (R121, R122). -/
theorem zext9_reg_linked (ha : a.toNat < 8) (hpc : s.pc.toNat ≤ 253) :
    zext9 ((s.setReg linkReg s.returnAddress).reg ⟨a.toNat, ha⟩) =
      BitVec.ofNat 9 (if a.toNat = 2 then s.pc.toNat + 2 else s.x[a.toNat].toNat) := by
  rw [zext9_eq_ofNat, reg_setReg]
  by_cases hlink : a.toNat = 2
  · rw [if_pos (Fin.ext hlink), if_pos hlink, returnAddress_toNat s hpc]
  · rw [if_neg (fun he => hlink (congrArg Fin.val he)), if_neg hlink]
    rfl

theorem exec_call (ha : a.toNat < 8) (hpc : s.pc.toNat ≤ 253) (hlo : 1 ≤ s.sp.toNat) (hhi : s.sp.toNat ≤ 256) :
    exec (.call a) s = .next { s with
      x := s.x.set 2 s.returnAddress, sp := BitVec.ofNat 9 (s.sp.toNat - 1)
      pc := BitVec.ofNat 9 (if a.toNat = 2 then s.pc.toNat + 2 else s.x[a.toNat].toNat)
      mem := s.mem.write (s.sp.toNat - 1) s.returnAddress } := by
  have hv : validAddress s.pushAddress := (validAddress_pushAddress s).mpr ⟨hlo, hhi⟩
  rw [exec_of_handled (.call a s ha hv), Instr.opcode, finish_call, zext9_reg_linked ha hpc]

/-- The refused push discards the write of register 2: CALL on a full stack raises AddressError(-1), which is `0x1FF`
in nine bits (R121, R132, R140). -/
theorem exec_call_of_full (ha : a.toNat < 8) (hsp : s.sp.toNat = 0) :
    exec (.call a) s = .next { s with run := .faulted, faultCode := 1, faultInfo := 0x1FF } := by
  have hv : ¬ validAddress s.pushAddress := by rw [validAddress_pushAddress]; omega
  rw [exec_of_raises (.call a s ha hv), pushAddress_of_invalid (by omega) hv]
  rfl

/-- Settles O19: with room the return address lands in register 2 and in the one cell below `sp`; a full stack and an
illegal register raise. -/
theorem callLinksPushesAndJumps : Obligations.CallLinksPushesAndJumps := by
  intro a s hpc hhi
  refine ⟨fun ha hlo => ?_, fun ha hfull => exec_call_of_full (by omega) hfull, fun ha => exec_of_illegal rfl ha s⟩
  refine ⟨_, exec_call ha hpc hlo hhi, rfl, ?_, ?_, fun k hk => read_write_of_ne hk _ _⟩
  · rw [Vector.getElem_set_self, returnAddress_toNat s hpc]
  · rw [read_write_self, returnAddress_toNat s hpc]

/-! ### RETURN -/

theorem exec_ret (hsp : s.sp.toNat ≤ 255) :
    exec .ret s = .next { s with
      x := s.x.set 2 (s.mem.read s.sp.toNat), sp := BitVec.ofNat 9 (s.sp.toNat + 1)
      pc := BitVec.ofNat 9 (s.mem.read s.sp.toNat).toNat } := by
  have hv : validAddress s.popAddress := (validAddress_popAddress s).mpr hsp
  rw [exec_of_handled (.ret s hv), Instr.opcode, finish_ret, zext9_eq_ofNat]

/-- RETURN from the empty stack raises AddressError(256) (R123, R132). -/
theorem exec_ret_of_empty (hsp : s.sp.toNat = 256) :
    exec .ret s = .next { s with run := .faulted, faultCode := 1, faultInfo := 0x100 } := by
  have hv : ¬ validAddress s.popAddress := by rw [validAddress_popAddress]; omega
  rw [exec_of_raises (.ret s hv), popAddress_of_invalid (by omega) hv, raise_address_256]

/-- Settles O20: below 256 the cell at `sp` is read into register 2 and `pc`; the empty stack raises. -/
theorem returnPopsTheProgramCounter : Obligations.ReturnPopsTheProgramCounter :=
  fun _ _ => ⟨exec_ret, exec_ret_of_empty⟩

/-! ### The two in sequence -/

theorem step_call (hr : s.run = .running) (hpc : s.pc.toNat ≤ 253) (hop : s.mem.read s.pc.toNat = 0x50)
    (hra : s.mem.read (s.pc.toNat + 1) = a) (ha : a.toNat < 8) (hlo : 1 ≤ s.sp.toNat) (hhi : s.sp.toNat ≤ 256) :
    step s = .next { s with
      x := s.x.set 2 s.returnAddress, sp := BitVec.ofNat 9 (s.sp.toNat - 1)
      pc := BitVec.ofNat 9 (if a.toNat = 2 then s.pc.toNat + 2 else s.x[a.toNat].toNat)
      mem := s.mem.write (s.sp.toNat - 1) s.returnAddress } := by
  rw [step_of_code (o := .call) hr hpc hop, hra, Opcode.assemble, exec_call ha hpc hlo hhi]

/-- RETURN in a state that has the byte `v` on top of its stack. -/
theorem step_ret {v : Byte} (hr : s.run = .running) (hpc : s.pc.toNat ≤ 253) (hop : s.mem.read s.pc.toNat = 0x11)
    (hsp : s.sp.toNat ≤ 255) (htop : s.mem.read s.sp.toNat = v) :
    step s = .next { s with
      x := s.x.set 2 v, sp := BitVec.ofNat 9 (s.sp.toNat + 1), pc := BitVec.ofNat 9 v.toNat } := by
  rw [step_of_code (o := .ret) hr hpc hop, Opcode.assemble, exec_ret hsp, htop]

/-- R126: the target lies outside the pushed cell, so the RETURN is still there when it is fetched, and it pops the
return address that the CALL pushed. -/
theorem run_call_ret (hr : s.run = .running) (hpc : s.pc.toNat ≤ 253) (hop : s.mem.read s.pc.toNat = 0x50)
    (hra : s.mem.read (s.pc.toNat + 1) = a) (ha : a.toNat < 8) (hlo : 1 ≤ s.sp.toNat) (hhi : s.sp.toNat ≤ 256)
    (hne : a.toNat ≠ 2) (htgt : s.x[a.toNat].toNat ≤ 253) (hret : s.mem.read s.x[a.toNat].toNat = 0x11)
    (houtside : s.sp.toNat - 1 ≠ s.x[a.toNat].toNat) :
    Host.Core.run core 2 s = .next { s with
      x := s.x.set 2 s.returnAddress, pc := BitVec.ofNat 9 (s.pc.toNat + 2)
      mem := s.mem.write (s.sp.toNat - 1) s.returnAddress } := by
  have hpc' : (BitVec.ofNat 9 s.x[a.toNat].toNat).toNat = s.x[a.toNat].toNat := by
    rw [BitVec.toNat_ofNat]
    exact Nat.mod_eq_of_lt (by omega)
  have hsp' : (BitVec.ofNat 9 (s.sp.toNat - 1)).toNat = s.sp.toNat - 1 := by
    rw [BitVec.toNat_ofNat]
    exact Nat.mod_eq_of_lt (by omega)
  have hback : BitVec.ofNat 9 (s.sp.toNat - 1 + 1) = s.sp := by
    rw [Nat.sub_add_cancel hlo, BitVec.ofNat_toNat, BitVec.setWidth_eq]
  have hcall := step_call hr hpc hop hra ha hlo hhi
  rw [if_neg hne] at hcall
  have hreturn := step_ret (v := s.returnAddress)
    (s := { s with
      x := s.x.set 2 s.returnAddress, sp := BitVec.ofNat 9 (s.sp.toNat - 1)
      pc := BitVec.ofNat 9 s.x[a.toNat].toNat, mem := s.mem.write (s.sp.toNat - 1) s.returnAddress })
    hr (by rw [hpc']; exact htgt) (by rw [hpc', read_write_of_ne houtside.symm, hret]) (by rw [hsp']; omega)
    (by rw [hsp', read_write_self])
  rw [run_two_of_next hcall hreturn]
  simp only [hsp', hback, Vector.set_set, returnAddress_toNat s hpc]

/-- Settles O50: the round trip through a register other than 2, and the one step of a CALL of register 2. -/
theorem callThenReturnResumesAfterTheCall : Obligations.CallThenReturnResumesAfterTheCall := by
  intro s a ha hr hpc hop hra hlo hhi
  refine ⟨fun hne htgt hret houtside => ?_, fun hlink => ?_⟩
  · refine ⟨_, run_call_ret hr hpc hop hra ha hlo hhi hne htgt hret houtside, rfl, ?_,
      fun k hk => read_write_of_ne hk _ _⟩
    rw [read_write_self, returnAddress_toNat s hpc]
  · refine ⟨_, step_call hr hpc hop hra ha hlo hhi, ?_⟩
    rw [if_pos hlink]
    exact pcPlus_toNat s 2 (by omega)

end Sys2Proof.Machine
end

