-- ==== Sys2Proof/Proofs/Exceptions.lean ====
section
/-! The errors of 60_exceptions.md: when RegisterError is raised (R133), which error a step raises first (R132, R138),
and that a raising step is precise (R140). -/

namespace Sys2Proof.Machine

variable {i : Instr} {s t : State} {e : ErrorKind}

/-! ### RegisterError -/

theorem exec_of_firstIllegal {c : Byte} (h : i.firstIllegal = some c) (s : State) :
    exec i s = .next { s with run := .faulted, faultCode := 2, faultInfo := BitVec.ofNat 9 c.toNat } := by
  rw [exec_of_raises (.register i s c h), raise_register]

/-- With legal operands only a stack access out of range raises (R132, R138). -/
theorem Raises.stack_access (h : Raises i s e) (hf : i.firstIllegal = none) :
    ((i.opcode = .push ∨ i.opcode = .call) ∧ ¬ validAddress s.pushAddress ∧ e = .address s.pushAddress) ∨
    ((i.opcode = .pop ∨ i.opcode = .ret) ∧ ¬ validAddress s.popAddress ∧ e = .address s.popAddress) := by
  cases h with
  | register _ _ c hc => cases hf.symm.trans hc
  | push _ _ _ hv => exact .inl ⟨.inl rfl, hv, rfl⟩
  | call _ _ _ hv => exact .inl ⟨.inr rfl, hv, rfl⟩
  | pop _ _ _ hv => exact .inr ⟨.inl rfl, hv, rfl⟩
  | ret _ hv => exact .inr ⟨.inr rfl, hv, rfl⟩

/-- With legal operands the error an instruction raises is AddressError (R130). -/
theorem Raises.code_eq_one (h : Raises i s e) (hf : i.firstIllegal = none) : e.code = 1 := by
  rcases h.stack_access hf with ⟨-, -, rfl⟩ | ⟨-, -, rfl⟩
  · rfl
  · rfl

/-- Settles O25: the first illegal operand is reported in every state; without one, a handled instruction keeps
`fault_code` and a raising one sets it to 1. -/
theorem registerErrorExactlyForIllegalOperands : Obligations.RegisterErrorExactlyForIllegalOperands := by
  refine ⟨fun i c s hf => ⟨firstIllegal_gt hf, exec_of_firstIllegal hf s⟩, fun i s t hf hx hs => ?_, rfl, rfl⟩
  rcases exec_cases hx with ⟨u, hu, rfl⟩ | ⟨e, he, rfl⟩
  · obtain ⟨-, hcode, -⟩ := hu.record_eq
    rwa [finish_faultCode, hcode]
  · rw [raise_faultCode, he.code_eq_one hf]
    decide

/-! ### The stack access -/

/-- A push of a legal instruction at `sp = 0` raises AddressError(-1), by PUSH and by CALL (R132). -/
theorem exec_of_full (hf : i.firstIllegal = none) (ho : i.opcode = .push ∨ i.opcode = .call) (hsp : s.sp.toNat = 0) :
    exec i s = .next { s with run := .faulted, faultCode := 1, faultInfo := 0x1FF } := by
  rw [firstIllegal_eq_none_iff] at hf
  cases i with
  | push a => exact exec_push_of_full (legal_of_wellFormed_one hf) hsp
  | call a => exact exec_call_of_full (legal_of_wellFormed_one hf) hsp
  | halt | loadImmediate | printRegister | multiply | add | pop | ret => simp [Instr.opcode] at ho

/-- A pop of a legal instruction at `sp = 256` raises AddressError(256), by POP and by RETURN (R132). -/
theorem exec_of_empty (hf : i.firstIllegal = none) (ho : i.opcode = .pop ∨ i.opcode = .ret) (hsp : s.sp.toNat = 256) :
    exec i s = .next { s with run := .faulted, faultCode := 1, faultInfo := 0x100 } := by
  rw [firstIllegal_eq_none_iff] at hf
  cases i with
  | pop a => exact exec_pop_of_empty (legal_of_wellFormed_one hf) hsp
  | ret => exact exec_ret_of_empty hsp
  | halt | loadImmediate | printRegister | multiply | add | push | call => simp [Instr.opcode] at ho

/-! ### The priority of errors -/

theorem Handled.finish_run_ne_faulted {u : State} (h : Handled i s u) (hr : s.run = .running) :
    (finish i.opcode u).run ≠ .faulted := by
  obtain ⟨hrun, -, -⟩ := h.record_eq
  exact Machine.finish_run_ne_faulted _ (hrun.trans hr)

/-- Where no error applies, none is raised (R138). -/
theorem exec_of_no_error (hr : s.run = .running) (hsp : s.sp.toNat ≤ 256) (hf : i.firstIllegal = none)
    (hpush : ¬ ((i.opcode = .push ∨ i.opcode = .call) ∧ s.sp.toNat = 0))
    (hpop : ¬ ((i.opcode = .pop ∨ i.opcode = .ret) ∧ s.sp.toNat = 256)) :
    ∃ t, exec i s = .next t ∧ t.run ≠ .faulted := by
  rcases handled_or_raises i s with ⟨u, hu⟩ | ⟨e, he⟩
  · exact ⟨_, exec_of_handled hu, hu.finish_run_ne_faulted hr⟩
  · rcases he.stack_access hf with ⟨ho, hv, -⟩ | ⟨ho, hv, -⟩
    · rw [validAddress_pushAddress] at hv
      exact absurd ⟨ho, by omega⟩ hpush
    · rw [validAddress_popAddress] at hv
      exact absurd ⟨ho, by omega⟩ hpop

/-- Settles O26: the cases follow the order of R138, the fetch, the look-up, the operands, the stack access. -/
theorem stepRaisesTheFirstApplicableError : Obligations.StepRaisesTheFirstApplicableError := by
  intro s hr hpc hsp
  by_cases hfetch : 254 ≤ s.pc.toNat
  · exact ⟨_, step_of_fetch_out_of_range hr hfetch hpc, by rw [if_pos hfetch]⟩
  have hle : s.pc.toNat ≤ 253 := by omega
  simp only [if_neg hfetch]
  rcases decode_cases (s.mem.read s.pc.toNat) (s.mem.read (s.pc.toNat + 1)) (s.mem.read (s.pc.toNat + 2))
    with ⟨o, -, hd⟩ | ⟨hl, hd⟩
  · rw [step_of_fetch_ok hr (fetchInstr_of_ok hle hd), hd]
    generalize o.assemble _ _ = i
    cases hf : i.firstIllegal with
    | some c => exact ⟨_, exec_of_firstIllegal hf s, by simp only [hf]⟩
    | none =>
      simp only [hf]
      by_cases hpush : (i.opcode = .push ∨ i.opcode = .call) ∧ s.sp.toNat = 0
      · exact ⟨_, exec_of_full hf hpush.1 hpush.2, by rw [if_pos hpush]⟩
      by_cases hpop : (i.opcode = .pop ∨ i.opcode = .ret) ∧ s.sp.toNat = 256
      · exact ⟨_, exec_of_empty hf hpop.1 hpop.2, by rw [if_neg hpush, if_pos hpop]⟩
      simp only [if_neg hpush, if_neg hpop]
      exact exec_of_no_error hr hsp hf hpush hpop
  · rw [hd]
    exact ⟨_, unknownOpcodeRaises s hr hle (lookup_eq_none_iff.mp hl), rfl⟩

/-! ### Faults are precise -/

/-- A running machine becomes FAULTED only by raising an error (R139). -/
theorem step_faulted_eq_raise (hr : s.run = .running) (h : step s = .next t) (ht : t.run = .faulted) :
    ∃ e, t = s.raise e := by
  rcases step_cases h with ⟨hn, -⟩ | ⟨-, -, rfl⟩ | ⟨-, -, -, rfl⟩ | ⟨-, -, o, -, hx⟩
  · exact absurd hr hn
  · exact ⟨_, rfl⟩
  · exact ⟨_, rfl⟩
  · rcases exec_cases hx with ⟨u, hu, rfl⟩ | ⟨e, -, rfl⟩
    · exact absurd ht (hu.finish_run_ne_faulted hr)
    · exact ⟨e, rfl⟩

/-- Settles O27: the step raised, and raising keeps all five components. -/
theorem raisingStepsArePrecise : Obligations.RaisingStepsArePrecise := by
  intro s t hr h ht
  obtain ⟨e, rfl⟩ := step_faulted_eq_raise hr h ht
  exact ⟨raise_x s e, raise_pc s e, raise_sp s e, raise_mem s e, raise_out s e⟩

end Sys2Proof.Machine
end

