-- ==== Sys2Proof/Proofs/ResetLaunch.lean ====
section
/-! Reset and launch (70_reset_and_hazards.md): the reset values of R161 and the launch state of R164. -/

namespace Sys2Proof.Machine

variable {image : List Byte} {k : Nat}

/-! ### Reset -/

/-- Settles O1: each component has the value R161 names, and the opcode table lists the bytes of R56. -/
theorem resetGivesTheSpecifiedValues : Obligations.ResetGivesTheSpecifiedValues := by
  have hx (i : Fin 8) : State.reset.x[i] = 0 := by simp
  have hmem (k : Nat) : State.reset.mem.read k = 0 := by rw [reset_mem, read_nil]
  have hcodes : Opcode.all.map (fun o => o.row.code) = [0x01, 0x82, 0x47, 0xA2, 0xA0, 0x45, 0x46, 0x50, 0x11] := rfl
  exact ⟨hx, rfl, rfl, fun k _ => hmem k, reset_run, reset_faultCode, reset_faultInfo, reset_out, hcodes⟩

/-! ### Launch -/

/-- The converse of `launch_cases`: an image that fits into memory launches (R164). -/
theorem launch_of_length_le (h : image.length ≤ 256) :
    launch image = .next { State.reset with mem := writeImage 0 image [] } :=
  if_pos h

/-- The cells of the image, when it is written from address 0 into any memory (R164). -/
theorem read_writeImage_zero_of_lt (h : k < image.length) (m : Memory) :
    Memory.read k (writeImage 0 image m) = image[k] := by
  rw [read_writeImage, if_pos (by omega), Nat.sub_zero, List.getD_eq_getElem _ _ h]

/-- The cells behind the image keep what they held (R164). -/
theorem read_writeImage_zero_of_le (h : image.length ≤ k) (m : Memory) :
    Memory.read k (writeImage 0 image m) = Memory.read k m := by
  rw [read_writeImage, if_neg (by omega)]

/-- Settles O3: the launch replaces `mem` alone; the image's cells are written, those behind it keep their reset
value 0. -/
theorem launchPlacesTheImageFromAddressZero : Obligations.LaunchPlacesTheImageFromAddressZero := by
  intro image hlen
  refine ⟨_, launch_of_length_le hlen, rfl, fun k hk => ?_, fun k hk _ => ?_⟩
  · rw [read_writeImage_zero_of_lt hk, List.getElem?_eq_getElem hk]
  · rw [read_writeImage_zero_of_le hk, read_nil]

end Sys2Proof.Machine
end

