-- ==== Sys2Proof/Proofs/Encoding.lean ====
section
/-! The encoding of 30_encoding.md: decoding and encoding are inverse to each other (R50 to R57), the padding of the
fetch window plays no part (R51), and the count of illegal opcode bytes (R60). -/

namespace Sys2Proof

variable {i : Instr} {bytes rest : List Byte}

/-! ### The linear reader -/

/-- An assembled instruction is encoded as the opcode byte and as many of the two operand bytes as its format uses
(R50). -/
theorem encode_assemble (o : Opcode) (a b : Byte) :
    encode (o.assemble a b) = o.row.code :: [a, b].take o.row.format.operandCount := by
  cases o <;> rfl

theorem decodeBytes_encode (i : Instr) (rest : List Byte) : decodeBytes (encode i ++ rest) = .ok (i, rest) := by
  cases i <;> rfl

theorem eq_encode_append_of_decodeBytes (h : decodeBytes bytes = .ok (i, rest)) : bytes = encode i ++ rest := by
  unfold decodeBytes at h
  split at h
  · cases h
  next op tail =>
    split at h
    · cases h
    next o ho =>
      rw [lookup_some ho]
      split at h
      next hcount => cases h; rw [encode_assemble, hcount]; rfl
      next hcount => cases h; rw [encode_assemble, hcount]; rfl
      next hcount => cases h; rw [encode_assemble, hcount]; rfl
      · cases h

/-- Settles O43: the reader takes the opcode byte of a row of the table and the operands its format uses, and these
are the bytes the encoder writes. -/
theorem encodeGivesBackTheDecodedBytes : Obligations.EncodeGivesBackTheDecodedBytes :=
  fun _ _ _ => eq_encode_append_of_decodeBytes

/-! ### The fetch window -/

/-- The two bytes behind the opcode byte, padding included, assemble to the instruction whose operands they begin with
(R51). -/
theorem assemble_of_operands_append {a b : Byte} {padding tail : List Byte}
    (h : i.operands ++ padding = a :: b :: tail) : i.opcode.assemble a b = i := by
  cases i with
  | halt | ret => rfl
  | printRegister | push | pop | call => cases h; rfl
  | loadImmediate | multiply | add => cases h; rfl

/-- Settles O42: the linear reader inverts the encoder; in the window the opcode byte selects the row and the operand
bytes stand first, before any padding. -/
theorem decodeGivesBackTheEncodedInstruction : Obligations.DecodeGivesBackTheEncodedInstruction := by
  intro i
  refine ⟨decodeBytes_encode i, fun p q op a b tail h => ?_⟩
  obtain ⟨hop, hoperands⟩ := List.cons.inj h
  rw [← hop, decode_code, assemble_of_operands_append hoperands]

/-! ### The opcode table -/

/-- Settles O44: each word begins with the opcode byte of one row and goes on with that row's operands (R56, R63). -/
theorem specWordsDecodeToTheirInstructions : Obligations.SpecWordsDecodeToTheirInstructions :=
  ⟨decode_code .halt _ _, decode_code .loadImmediate _ _, decode_code .printRegister _ _, decode_code .multiply _ _,
    decode_code .add _ _, decode_code .push _ _, decode_code .pop _ _, decode_code .call _ _, decode_code .ret _ _⟩

/-- The opcode bytes as numbers, in the table's order (R56). -/
def opcodeNumbers : List Nat := Opcode.all.map fun o => o.row.code.toNat

theorem mem_opcodeNumbers_iff {n : Nat} (h : n < 256) :
    n ∈ opcodeNumbers ↔ (lookup (BitVec.ofNat 8 n)).isSome = true := by
  rw [opcodeNumbers, List.mem_map, Option.isSome_iff_exists]
  refine exists_congr fun o => ?_
  rw [lookup_eq_some_iff]
  constructor
  · rintro ⟨-, rfl⟩
    simp
  · intro ho
    exact ⟨opcode_mem_all o, by rw [← ho, BitVec.toNat_ofNat]; exact Nat.mod_eq_of_lt h⟩

/-- The legal numbers below 256 are the nine of the table (R56). -/
theorem legal_opcodes_perm :
    (List.filter (fun n => (lookup (BitVec.ofNat 8 n)).isSome) (List.range 256)).Perm opcodeNumbers := by
  refine (List.perm_ext_iff_of_nodup (List.nodup_range.filter _) (by decide)).mpr fun n => ?_
  rw [List.mem_filter, List.mem_range]
  refine ⟨fun ⟨hlt, hn⟩ => (mem_opcodeNumbers_iff hlt).mpr hn, fun hn => ?_⟩
  have hlt : n < 256 := by
    obtain ⟨o, -, rfl⟩ := List.mem_map.mp hn
    exact o.row.code.isLt
  exact ⟨hlt, (mem_opcodeNumbers_iff hlt).mp hn⟩

/-- Settles O45: the legal bytes are the nine of the table, and every byte is legal or illegal. -/
theorem twoHundredFortySevenBytesAreIllegal : Obligations.TwoHundredFortySevenBytesAreIllegal := by
  have hlegal := legal_opcodes_perm.length_eq
  have hall := List.length_eq_length_filter_add (l := List.range 256) fun n => (lookup (BitVec.ofNat 8 n)).isSome
  rw [hlegal, List.length_range] at hall
  simp only [Option.not_isSome] at hall
  have hnine : opcodeNumbers.length = 9 := rfl
  unfold Obligations.TwoHundredFortySevenBytesAreIllegal
  omega

end Sys2Proof
end

