-- ==== Sys2Proof/Proofs/StepInvariants.lean ====
section
/-! The invariants of R29 as statements about reset and a single step, and the count of the output from any state. -/

namespace Sys2Proof.Machine

/-- Settles O37: the reset state is the launch state of the empty image. -/
theorem resetMeetsTheInvariants : Obligations.ResetMeetsTheInvariants :=
  launch_inv (image := []) rfl

/-- Settles O38: of a state that meets the invariants, a handled instruction keeps each of them, and a raised error is
one of the records R130 lists. -/
theorem stepKeepsTheInvariants : Obligations.StepKeepsTheInvariants :=
  fun _ _ => step_keeps_inv

/-- Settles O40: each step emits one byte exactly when it completes a PRINT_REGISTER. -/
theorem outputLengthCountsPrints : Obligations.OutputLengthCountsPrints :=
  fun _ _ _ => run_out_length

end Sys2Proof.Machine
end

