-- ==== Sys2Proof/Proofs/LoaderText.lean ====
section
/-! The Loader: which lines of program text are skipped, accepted and malformed (R64), and what becomes of the accepted
bytes (R135, R164, D20, D25). -/

namespace Sys2Proof.Machine

variable {line : List Char} {lines : List (List Char)} {v w : Byte} {strict : Bool}

/-! ### The text of a line -/

theorem lineText_eq_nil_iff : lineText line = [] ↔ IsEmptyLine line := by
  constructor
  · intro h
    obtain ⟨before, after, comment, hline, hspace, hcomment⟩ := exists_lineText line
    rw [h, List.append_nil] at hline
    exact ⟨before ++ after, comment, hline, hspace, hcomment⟩
  · rintro ⟨space, comment, rfl, hspace, hcomment⟩
    simpa using lineText_of_append (before := space) (text := []) (after := []) (by simpa using hspace) hcomment
      (by simp)

theorem lineText_eq_binaryLiteral_iff : lineText line = binaryLiteral v ↔ IsByteLine line v := by
  constructor
  · intro h
    obtain ⟨before, after, comment, hline, hspace, hcomment⟩ := exists_lineText line
    rw [h] at hline
    exact ⟨before, after, comment, hline, hspace, hcomment⟩
  · rintro ⟨before, after, comment, rfl, hspace, hcomment⟩
    exact lineText_of_append hspace hcomment fun _ => mem_binaryLiteral

/-- A literal is read as one byte only (R5). -/
theorem binaryLiteral_injective (h : binaryLiteral v = binaryLiteral w) : v = w := by
  have hv := (binaryValue_eq_some_iff (length_binaryLiteral v) v).mpr rfl
  have hw := (binaryValue_eq_some_iff (length_binaryLiteral v) w).mpr h
  exact BitVec.eq_of_toNat_eq (Option.some.inj (hv.symm.trans hw))

theorem binaryLiteral_ne_nil (v : Byte) : binaryLiteral v ≠ [] := by
  intro h
  have hlen := length_binaryLiteral v
  rw [h] at hlen
  cases hlen

/-! ### What a line gives -/

theorem parseLine_eq_skipped_iff : parseLine line = .skipped ↔ IsEmptyLine line := by
  rw [← lineText_eq_nil_iff]
  rcases parseLine_cases line with ⟨ht, hp⟩ | ⟨w, ht, hp⟩ | ⟨ht, -, hp⟩
  · simp [ht, hp]
  · simp [ht, hp, binaryLiteral_ne_nil]
  · simp [ht, hp]

theorem parseLine_eq_accepted_iff : parseLine line = .accepted v ↔ IsByteLine line v := by
  rw [← lineText_eq_binaryLiteral_iff]
  rcases parseLine_cases line with ⟨ht, hp⟩ | ⟨w, ht, hp⟩ | ⟨-, ht, hp⟩
  · simp [ht, hp, (binaryLiteral_ne_nil v).symm]
  · rw [ht, hp, LineResult.accepted.injEq]
    exact ⟨fun h => h ▸ rfl, binaryLiteral_injective⟩
  · simp [hp, ht v]

/-- A line that is neither skipped nor accepted is malformed: there is no fourth case. -/
theorem parseLine_eq_malformed_iff :
    parseLine line = .malformed ↔ ¬ IsEmptyLine line ∧ ∀ v, ¬ IsByteLine line v := by
  simp only [← parseLine_eq_skipped_iff, ← parseLine_eq_accepted_iff]
  cases parseLine line <;> simp

/-! ### The image -/

theorem acceptedBytes_cons (line : List Char) (lines : List (List Char)) :
    acceptedBytes (line :: lines) = (parseLine line).byte?.toList ++ acceptedBytes lines := by
  cases h : (parseLine line).byte? <;> simp [acceptedBytes, h]

/-- Where no malformed line stops the load, the image is the accepted bytes (R64, D25). -/
theorem parseImage_eq_acceptedBytes (h : strict = false ∨ ∀ line ∈ lines, parseLine line ≠ .malformed) :
    parseImage strict lines = some (acceptedBytes lines) := by
  induction lines with
  | nil => rfl
  | cons line rest ih =>
    have hgo : ¬ (strict = true ∧ parseLine line = .malformed) := by
      rintro ⟨hstrict, hline⟩
      rcases h with h | h
      · rw [hstrict] at h; cases h
      · exact h line List.mem_cons_self hline
    have hrest := ih (h.imp_right fun h l hl => h l (List.mem_cons_of_mem _ hl))
    rw [parseImage_cons, if_neg hgo, hrest, acceptedBytes_cons, Option.map_some]

/-- In strict mode one malformed line anywhere leaves no image (D25). -/
theorem parseImage_strict_of_malformed (h : ∃ line ∈ lines, parseLine line = .malformed) :
    parseImage true lines = none := by
  induction lines with
  | nil => obtain ⟨_, hmem, -⟩ := h; cases hmem
  | cons line rest ih =>
    rw [parseImage_cons]
    split
    · rfl
    next hgo =>
      obtain ⟨l, hmem, hl⟩ := h
      rcases List.mem_cons.mp hmem with rfl | hmem
      · exact absurd ⟨rfl, hl⟩ hgo
      · rw [ih ⟨l, hmem, hl⟩, Option.map_none]

/-! ### The load -/

theorem loadProgramWith_of_image {image : List Byte} (h : parseImage strict lines = some image) :
    loadProgramWith strict (some lines) = launch image := by
  simp only [loadProgramWith, Option.bind_some, h]

theorem loadProgramWith_of_no_image (h : parseImage strict lines = none) :
    loadProgramWith strict (some lines) = .fault .loadError := by
  simp only [loadProgramWith, Option.bind_some, h]

/-- Settles O5: a line's text decides what it gives; the image is read line by line, and the load launches it or ends
in LoadError where there is none. -/
theorem loaderReadsProgramText : Obligations.LoaderReadsProgramText := by
  refine ⟨fun _ => parseLine_eq_skipped_iff, fun _ _ => parseLine_eq_accepted_iff,
    fun _ => parseLine_eq_malformed_iff, parseImage_nil, fun strict lines h => ?_, fun lines h => ?_,
    fun _ => rfl, fun _ => rfl⟩
  · have himage := parseImage_eq_acceptedBytes h
    exact ⟨himage, loadProgramWith_of_image himage⟩
  · have himage := parseImage_strict_of_malformed h
    exact ⟨himage, loadProgramWith_of_no_image himage⟩

/-- Settles O4: the launch checks the length of the image (D20, log entry 10). -/
theorem longerImageIsRefused : Obligations.LongerImageIsRefused :=
  fun _ h => if_neg (Nat.not_le.mpr h)

end Sys2Proof.Machine
end

