-- ==== Sys2Proof/Proofs/Frames.lean ====
section
/-! What an instruction leaves unchanged, whether it completes or raises: each component once, for every instruction,
and from these the frames of 40_cycle_and_halt.md to 44_call_return.md. -/

namespace Sys2Proof

/-- The register an instruction writes, as a byte: its first operand, or register 2 for CALL and RETURN (R13). -/
def Instr.destination : Instr → Option Byte
  | .loadImmediate a _ => some a
  | .multiply a _ => some a
  | .add a _ => some a
  | .pop a => some a
  | .call _ => some 2
  | .ret => some 2
  | .halt => none
  | .printRegister _ => none
  | .push _ => none

end Sys2Proof

namespace Sys2Proof.Machine

variable {i : Instr} {s t u : State} {e : ErrorKind}

/-! ### What a handler leaves unchanged -/

theorem Handled.reg_eq (h : Handled i s u) {r : Fin 8} (hr : ∀ a, i.destination = some a → r.val ≠ a.toNat) :
    u.x[r] = s.x[r] := by
  have other {k : Nat} (hk : k < 8) (v : Byte) (hne : r.val ≠ k) : (s.x.set k v)[r] = s.x[r] :=
    Vector.getElem_set_ne hk r.isLt hne.symm
  cases h with
  | loadImmediate a b _ ha => exact other ha _ (hr a rfl)
  | multiply a b _ ha _ => exact other ha _ (hr a rfl)
  | add a b _ ha _ => exact other ha _ (hr a rfl)
  | pop a _ ha _ => exact other ha _ (hr a rfl)
  | call | ret => exact other (by decide) _ (hr 2 rfl)
  | halt | printRegister | push => rfl

/-- A handler keeps `sp`, or it pushed a byte, or it popped one (R18). -/
theorem Handled.sp_cases (h : Handled i s u) :
    u.sp = s.sp ∨
    ((i.opcode = .push ∨ i.opcode = .call) ∧ u.sp.toNat + 1 = s.sp.toNat) ∨
    ((i.opcode = .pop ∨ i.opcode = .ret) ∧ u.sp.toNat = s.sp.toNat + 1) := by
  have down (hv : validAddress s.pushAddress) : (BitVec.ofNat 9 (s.sp.toNat - 1)).toNat + 1 = s.sp.toNat := by
    rw [validAddress_pushAddress] at hv
    rw [BitVec.toNat_ofNat]; omega
  have up (hv : validAddress s.popAddress) : (BitVec.ofNat 9 (s.sp.toNat + 1)).toNat = s.sp.toNat + 1 := by
    rw [validAddress_popAddress] at hv
    rw [BitVec.toNat_ofNat]; omega
  cases h with
  | push _ _ _ hv => exact .inr (.inl ⟨.inl rfl, down hv⟩)
  | call _ _ _ hv => exact .inr (.inl ⟨.inr rfl, down hv⟩)
  | pop _ _ _ hv => exact .inr (.inr ⟨.inl rfl, up hv⟩)
  | ret _ hv => exact .inr (.inr ⟨.inr rfl, up hv⟩)
  | halt | loadImmediate | printRegister | multiply | add => exact .inl rfl

/-- A handler emits nothing, or it is PRINT_REGISTER's (R21, R92). -/
theorem Handled.out_cases (h : Handled i s u) :
    u.out = s.out ∨ ∃ (a : Byte) (ha : a.toNat < 8), i = .printRegister a ∧ u.out = s.out ++ [s.x[a.toNat]] := by
  cases h with
  | printRegister a _ ha => exact .inr ⟨a, ha, rfl, rfl⟩
  | halt | loadImmediate | multiply | add | push | pop | call | ret => exact .inl rfl

/-- A handler changes no cell, or it is PUSH's or CALL's and the cell is the one at the push address (R22). -/
theorem Handled.read_cases (h : Handled i s u) (k : Nat) :
    u.mem.read k = s.mem.read k ∨ ((i.opcode = .push ∨ i.opcode = .call) ∧ (k : Int) = s.pushAddress) := by
  have written (hv : validAddress s.pushAddress) (v : Byte) :
      (s.mem.write (s.sp.toNat - 1) v).read k = s.mem.read k ∨ (k : Int) = s.pushAddress := by
    by_cases hk : k = s.sp.toNat - 1
    · rw [validAddress_pushAddress] at hv
      simp only [State.pushAddress]
      omega
    · exact .inl (read_write_of_ne hk v s.mem)
  cases h with
  | push _ _ _ hv => exact (written hv _).imp_right fun hk => ⟨.inl rfl, hk⟩
  | call _ _ _ hv => exact (written hv _).imp_right fun hk => ⟨.inr rfl, hk⟩
  | halt | loadImmediate | printRegister | multiply | add | pop | ret => exact .inl rfl

/-! ### What an instruction leaves unchanged -/

theorem exec_reg_eq (h : exec i s = .next t) {r : Fin 8} (hr : ∀ a, i.destination = some a → r.val ≠ a.toNat) :
    t.x[r] = s.x[r] := by
  rcases exec_cases h with ⟨u, hu, rfl⟩ | ⟨e, -, rfl⟩
  · rw [finish_x, hu.reg_eq hr]
  · rfl

/-- An instruction without a destination keeps the whole register file. -/
theorem exec_x_eq (h : exec i s = .next t) (hi : i.destination = none) : t.x = s.x :=
  Vector.ext fun k hk => exec_reg_eq (r := ⟨k, hk⟩) h fun a ha => by rw [hi] at ha; cases ha

theorem exec_sp_eq (h : exec i s = .next t) (hpush : ¬ (i.opcode = .push ∨ i.opcode = .call))
    (hpop : ¬ (i.opcode = .pop ∨ i.opcode = .ret)) : t.sp = s.sp := by
  rcases exec_cases h with ⟨u, hu, rfl⟩ | ⟨e, -, rfl⟩
  · rw [finish_sp]
    rcases hu.sp_cases with hsp | ⟨ho, -⟩ | ⟨ho, -⟩
    · exact hsp
    · exact absurd ho hpush
    · exact absurd ho hpop
  · rfl

theorem exec_out_eq (h : exec i s = .next t) (hi : i.opcode ≠ .printRegister) : t.out = s.out := by
  rcases exec_cases h with ⟨u, hu, rfl⟩ | ⟨e, -, rfl⟩
  · rw [finish_out]
    rcases hu.out_cases with hout | ⟨a, -, rfl, -⟩
    · exact hout
    · exact absurd rfl hi
  · rfl

theorem exec_read_eq (h : exec i s = .next t) {k : Nat}
    (hk : i.opcode = .push ∨ i.opcode = .call → (k : Int) ≠ s.pushAddress) : t.mem.read k = s.mem.read k := by
  rcases exec_cases h with ⟨u, hu, rfl⟩ | ⟨e, -, rfl⟩
  · rw [finish_mem]
    rcases hu.read_cases k with hread | ⟨ho, hpushed⟩
    · exact hread
    · exact absurd hpushed (hk ho)
  · rfl

theorem exec_read_eq_of_not_push (h : exec i s = .next t) (hi : ¬ (i.opcode = .push ∨ i.opcode = .call)) (k : Nat) :
    t.mem.read k = s.mem.read k :=
  exec_read_eq h fun ho => absurd ho hi

/-! ### The run state and the fault record -/

theorem finish_run_of_ne {o : Opcode} (h : o ≠ .halt) (u : State) : (finish o u).run = u.run := by
  have hc : o.row.continues = true := by
    rw [← Bool.not_eq_false, continues_eq_false_iff]
    exact h
  rw [finish_of_continues u o hc]

/-- Legal operands and an access in range, where there is one, are all an instruction needs to complete (R138). -/
theorem handled_of_wellFormed (hw : i.wellFormed = true)
    (hpush : i.opcode = .push ∨ i.opcode = .call → validAddress s.pushAddress)
    (hpop : i.opcode = .pop ∨ i.opcode = .ret → validAddress s.popAddress) : ∃ u, Handled i s u := by
  rcases handled_or_raises i s with hu | ⟨e, he⟩
  · exact hu
  · rcases he.stack_access ((firstIllegal_eq_none_iff i).mpr hw) with ⟨ho, hv, -⟩ | ⟨ho, hv, -⟩
    · exact absurd (hpush ho) hv
    · exact absurd (hpop ho) hv

theorem Handled.exec_record_eq (hu : Handled i s u) (h : exec i s = .next t) :
    t.faultCode = s.faultCode ∧ t.faultInfo = s.faultInfo ∧ (i.opcode ≠ .halt → t.run = s.run) := by
  rw [exec_of_handled hu] at h
  cases h
  obtain ⟨hrun, hcode, hinfo⟩ := hu.record_eq
  exact ⟨by rw [finish_faultCode, hcode], by rw [finish_faultInfo, hinfo],
    fun hi => (finish_run_of_ne hi u).trans hrun⟩

/-- An instruction other than HALT that completes keeps `run` and the fault record. -/
theorem Handled.exec_run_record_eq (hu : Handled i s u) (h : exec i s = .next t) (hi : i.opcode ≠ .halt) :
    t.run = s.run ∧ t.faultCode = s.faultCode ∧ t.faultInfo = s.faultInfo := by
  obtain ⟨hcode, hinfo, hrun⟩ := hu.exec_record_eq h
  exact ⟨hrun hi, hcode, hinfo⟩

/-! ### The frames -/

/-- The frame of an instruction that has destination `a` and neither touches the stack nor emits nor halts. -/
theorem exec_frame_of_register_writer {a : Byte} (hd : i.destination = some a)
    (ho : i.opcode = .loadImmediate ∨ i.opcode = .multiply ∨ i.opcode = .add) (h : exec i s = .next t) :
    (∀ r : Fin 8, r.val ≠ a.toNat → t.x[r] = s.x[r]) ∧ t.sp = s.sp ∧ t.out = s.out ∧
    (∀ k, t.mem.read k = s.mem.read k) ∧
    (i.wellFormed = true → t.run = s.run ∧ t.faultCode = s.faultCode ∧ t.faultInfo = s.faultInfo) := by
  have hpush : ¬ (i.opcode = .push ∨ i.opcode = .call) := by rcases ho with ho | ho | ho <;> simp [ho]
  have hpop : ¬ (i.opcode = .pop ∨ i.opcode = .ret) := by rcases ho with ho | ho | ho <;> simp [ho]
  have hprint : i.opcode ≠ .printRegister := by rcases ho with ho | ho | ho <;> simp [ho]
  have hhalt : i.opcode ≠ .halt := by rcases ho with ho | ho | ho <;> simp [ho]
  refine ⟨fun r hr => exec_reg_eq h fun b hb => ?_, exec_sp_eq h hpush hpop, exec_out_eq h hprint,
    exec_read_eq_of_not_push h hpush, fun hw => ?_⟩
  · rw [hd] at hb
    cases hb
    exact hr
  · obtain ⟨u, hu⟩ := handled_of_wellFormed (s := s) hw (fun ho => absurd ho hpush) (fun ho => absurd ho hpop)
    exact hu.exec_run_record_eq h hhalt

/-- Settles O21: the three instructions share one frame, around the destination each of them names first. -/
theorem frameOfRegisterWriters : Obligations.FrameOfRegisterWriters := by
  rintro i a b s t (rfl | rfl | rfl) h
  · exact exec_frame_of_register_writer rfl (.inl rfl) h
  · exact exec_frame_of_register_writer rfl (.inr (.inl rfl)) h
  · exact exec_frame_of_register_writer rfl (.inr (.inr rfl)) h

/-- Settles O22: neither instruction has a destination or an access to memory; HALT sets `run` alone. -/
theorem frameOfHaltAndPrint : Obligations.FrameOfHaltAndPrint := by
  rintro i a s t (rfl | rfl) h
  · rw [exec_halt] at h
    cases h
    exact ⟨rfl, rfl, fun _ => rfl, fun _ => ⟨rfl, rfl⟩, fun _ => ⟨rfl, rfl, fun hi => absurd rfl hi⟩⟩
  · refine ⟨exec_x_eq h rfl, exec_sp_eq h (by simp [Instr.opcode]) (by simp [Instr.opcode]),
      exec_read_eq_of_not_push h (by simp [Instr.opcode]), nofun, fun hw => ?_⟩
    obtain ⟨hcode, hinfo, hrun⟩ :=
      (Handled.printRegister a s (legal_of_wellFormed_one hw)).exec_record_eq h
    exact ⟨hcode, hinfo, fun _ => hrun (by simp [Instr.opcode])⟩

/-- Settles O23: the push is the one access to memory, CALL has destination 2 and PUSH none, and a legal instruction
whose push is in range completes. -/
theorem frameOfPushAndCall : Obligations.FrameOfPushAndCall := by
  rintro i a s t (rfl | rfl) h
  · exact ⟨fun k hk => exec_read_eq h fun _ => hk, fun r _ => exec_reg_eq h nofun,
      exec_out_eq h (by simp [Instr.opcode]),
      fun hw hv => (Handled.push a s (legal_of_wellFormed_one hw) hv).exec_run_record_eq h (by simp [Instr.opcode])⟩
  · refine ⟨fun k hk => exec_read_eq h fun _ => hk, fun r hr => exec_reg_eq h ?_,
      exec_out_eq h (by simp [Instr.opcode]),
      fun hw hv => (Handled.call a s (legal_of_wellFormed_one hw) hv).exec_run_record_eq h (by simp [Instr.opcode])⟩
    rintro _ ⟨⟩ hlink
    exact hr rfl (Fin.ext hlink)

/-- Settles O24: a pop writes no cell and one register, and a legal instruction whose pop is in range completes. -/
theorem frameOfPopAndReturn : Obligations.FrameOfPopAndReturn := by
  rintro i a s t (rfl | ⟨rfl, rfl⟩) h
  · refine ⟨exec_read_eq_of_not_push h (by simp [Instr.opcode]), fun r hr => exec_reg_eq h ?_,
      exec_out_eq h (by simp [Instr.opcode]),
      fun hw hv => (Handled.pop a s (legal_of_wellFormed_one hw) hv).exec_run_record_eq h (by simp [Instr.opcode])⟩
    rintro _ ⟨⟩
    exact hr
  · refine ⟨exec_read_eq_of_not_push h (by simp [Instr.opcode]), fun r hr => exec_reg_eq h ?_,
      exec_out_eq h (by simp [Instr.opcode]),
      fun _ hv => (Handled.ret s hv).exec_run_record_eq h (by simp [Instr.opcode])⟩
    rintro _ ⟨⟩
    exact hr

end Sys2Proof.Machine
end

