-- ==== Sys2Proof/Proofs/StepEffects.lean ====
section
/-! What a step can do to each component (R18, R20, R21, R22, R77, R134): read off from the instruction it completed,
since a step that completes none changes `run` and the fault record alone. -/

namespace Sys2Proof

/-- No two rows of the opcode table share a byte (R56). -/
theorem opcode_code_injective {o o' : Opcode} (h : o.row.code = o'.row.code) : o = o' :=
  Option.some.inj ((lookup_code o).symm.trans (h ▸ lookup_code o'))

theorem opcode_code_mem_push {o : Opcode} (h : o = .push ∨ o = .call) :
    o.row.code ∈ ([0x45, 0x50] : List Byte) := by
  rcases h with rfl | rfl <;> decide

theorem opcode_code_mem_pop {o : Opcode} (h : o = .pop ∨ o = .ret) :
    o.row.code ∈ ([0x46, 0x11] : List Byte) := by
  rcases h with rfl | rfl <;> decide

end Sys2Proof

namespace Sys2Proof.Machine

variable {i : Instr} {s t u : State} {e : ErrorKind}

/-- The opcode `o` and the bytes that follow it stand at `pc`, and their instruction runs to the end of its handler
with `u`. -/
structure Completes (s : State) (o : Opcode) (u : State) : Prop where
  running : s.run = .running
  pc_le : s.pc.toNat ≤ 253
  code : s.mem.read s.pc.toNat = o.row.code
  handled : Handled (o.assemble (s.mem.read (s.pc.toNat + 1)) (s.mem.read (s.pc.toNat + 2))) s u

/-- A step that answers keeps all but `run` and the fault record, or it completes an instruction (R70, R140). -/
theorem step_keeps_or_completes (h : step s = .next t) :
    (t.x = s.x ∧ t.pc = s.pc ∧ t.sp = s.sp ∧ t.mem = s.mem ∧ t.out = s.out) ∨
    (∃ o u, Completes s o u ∧ t = finish o u) := by
  rcases step_cases h with ⟨-, rfl⟩ | ⟨-, -, rfl⟩ | ⟨-, -, -, rfl⟩ | ⟨hr, hpc, o, hcode, hx⟩
  · exact .inl ⟨rfl, rfl, rfl, rfl, rfl⟩
  · exact .inl ⟨rfl, rfl, rfl, rfl, rfl⟩
  · exact .inl ⟨rfl, rfl, rfl, rfl, rfl⟩
  · rcases exec_cases hx with ⟨u, hu, rfl⟩ | ⟨e, -, rfl⟩
    · rw [opcode_assemble]
      exact .inr ⟨o, u, ⟨hr, hpc, hcode, hu⟩, rfl⟩
    · exact .inl ⟨rfl, rfl, rfl, rfl, rfl⟩

/-! ### The stack pointer, the output, memory -/

/-- Settles O30: the instruction completed pushed or popped a byte, and its opcode byte says which. -/
theorem onlyFourInstructionsMoveTheStackPointer : Obligations.OnlyFourInstructionsMoveTheStackPointer := by
  intro s t _ _ h hne
  rcases step_keeps_or_completes h with ⟨-, -, hsp, -, -⟩ | ⟨o, u, hc, rfl⟩
  · exact absurd hsp hne
  rw [finish_sp] at hne ⊢
  refine ⟨hc.pc_le, ?_⟩
  rw [hc.code]
  rcases hc.handled.sp_cases with hsp | ⟨ho, hsp⟩ | ⟨ho, hsp⟩
  · exact absurd hsp hne
  · rw [opcode_assemble] at ho
    exact .inl ⟨opcode_code_mem_push ho, hsp⟩
  · rw [opcode_assemble] at ho
    exact .inr ⟨opcode_code_mem_pop ho, hsp⟩

/-- Two bytes that assemble to a PRINT_REGISTER do so behind its opcode, the first as its operand (R50). -/
theorem assemble_eq_printRegister {o : Opcode} {a b c : Byte} (h : o.assemble a b = .printRegister c) :
    o = .printRegister ∧ a = c := by
  have ho : o = .printRegister := (opcode_assemble o a b).symm.trans (congrArg Instr.opcode h)
  subst ho
  exact ⟨rfl, Instr.printRegister.inj h⟩

/-- Settles O31: the instruction completed emits nothing, or it is the PRINT_REGISTER that stands at `pc`. -/
theorem onlyPrintRegisterEmits : Obligations.OnlyPrintRegisterEmits := by
  intro s t h
  rcases step_keeps_or_completes h with ⟨-, -, -, -, hout⟩ | ⟨o, u, hc, rfl⟩
  · exact .inl hout
  rw [finish_out]
  rcases hc.handled.out_cases with hout | ⟨a, ha, hi, hout⟩
  · exact .inl hout
  · obtain ⟨rfl, rfl⟩ := assemble_eq_printRegister hi
    exact .inr ⟨hc.running, hc.pc_le, hc.code, ha, hout⟩

/-- Settles O32: the instruction completed changed a cell, so it pushed a byte there. -/
theorem onlyPushAndCallWriteMemory : Obligations.OnlyPushAndCallWriteMemory := by
  intro s t k h hne
  rcases step_keeps_or_completes h with ⟨-, -, -, hmem, -⟩ | ⟨o, u, hc, rfl⟩
  · rw [hmem] at hne
    exact absurd rfl hne
  rw [finish_mem] at hne
  rcases hc.handled.read_cases k with hread | ⟨ho, hk⟩
  · exact absurd hread hne
  · rw [opcode_assemble] at ho
    exact ⟨hc.running, hc.pc_le, hc.code ▸ opcode_code_mem_push ho, hk⟩

/-! ### The run state and the fault record -/

theorem Raises.code_ne_three (h : Raises i s e) : e.code ≠ 3 := by
  cases h <;> simp [ErrorKind.code]

/-- Settles O28: no error raised by the fetch, the look-up or an instruction has code 3, and a completed instruction
keeps the code that was there. -/
theorem unsupportedOperationIsUnreachable : Obligations.UnsupportedOperationIsUnreachable := by
  intro s t h hs
  rcases step_cases h with ⟨-, rfl⟩ | ⟨-, -, rfl⟩ | ⟨-, -, -, rfl⟩ | ⟨-, -, o, -, hx⟩
  · exact hs
  · simp [ErrorKind.code]
  · simp [ErrorKind.code]
  · rcases exec_cases hx with ⟨u, hu, rfl⟩ | ⟨e, he, rfl⟩
    · obtain ⟨-, hcode, -⟩ := hu.record_eq
      rwa [finish_faultCode, hcode]
    · exact he.code_ne_three

theorem Raises.opcode_ne_halt (h : Raises i s e) : i.opcode ≠ .halt := by
  cases h with
  | register _ _ c hc => rintro ho; cases i <;> cases ho; cases hc
  | push | call | pop | ret => simp [Instr.opcode]

theorem exec_run_eq_halted_iff (hr : s.run = .running) (h : exec i s = .next t) :
    t.run = .halted ↔ i.opcode = .halt := by
  rcases exec_cases h with ⟨u, hu, rfl⟩ | ⟨e, he, rfl⟩
  · obtain ⟨hrun, -, -⟩ := hu.record_eq
    by_cases ho : i.opcode = .halt
    · simp [ho, finish_halt]
    · simp [ho, finish_run_of_ne ho, hrun, hr]
  · simp [he.opcode_ne_halt]

/-- Settles O29: a fetch above 253 and a byte outside the table fault; a byte of the table halts exactly where it is
HALT's. -/
theorem haltedExactlyAfterOpcodeOne : Obligations.HaltedExactlyAfterOpcodeOne := by
  intro s t hr h
  rcases step_cases h with ⟨hn, -⟩ | ⟨-, hpc, rfl⟩ | ⟨-, -, hl, rfl⟩ | ⟨-, hpc, o, hcode, hx⟩
  · exact absurd hr hn
  · exact iff_of_false (by simp) (by omega)
  · refine iff_of_false (by simp) ?_
    rintro ⟨-, hone⟩
    rw [hone] at hl
    cases (lookup_code .halt).symm.trans hl
  · rw [exec_run_eq_halted_iff hr hx, opcode_assemble, hcode]
    exact ⟨fun ho => ⟨hpc, ho ▸ rfl⟩, fun ⟨_, hone⟩ => opcode_code_injective (o' := .halt) hone⟩

/-! ### What is never read -/

/-- From `s` and from `s'`, the states `t` and `t'` are the same effect: they agree on all but `out` and the fault
record, and the same bytes have been emitted. -/
def SameEffect (s t s' t' : State) : Prop :=
  t'.x = t.x ∧ t'.pc = t.pc ∧ t'.sp = t.sp ∧ t'.mem = t.mem ∧ t'.run = t.run ∧
    ∃ emitted, t.out = s.out ++ emitted ∧ t'.out = s'.out ++ emitted

section
variable {o : List Byte} {c : BitVec 3} {f : Ptr}

/-- A state keeps its effect when nothing is emitted. -/
theorem sameEffect_of_out_eq {s' : State} (hout : t.out = s.out) (hx : s'.out = o) :
    SameEffect s t s' { t with out := o, faultCode := c, faultInfo := f } :=
  ⟨rfl, rfl, rfl, rfl, rfl, [], by simp [hout], by simp [hx]⟩

theorem Handled.sameEffect (h : Handled i s u) (o : List Byte) (c : BitVec 3) (f : Ptr) :
    ∃ u', Handled i { s with out := o, faultCode := c, faultInfo := f } u' ∧
      SameEffect s u { s with out := o, faultCode := c, faultInfo := f } u' := by
  cases h with
  | halt => exact ⟨_, .halt _, sameEffect_of_out_eq rfl rfl⟩
  | loadImmediate a b _ ha => exact ⟨_, .loadImmediate a b _ ha, sameEffect_of_out_eq rfl rfl⟩
  | printRegister a _ ha => exact ⟨_, .printRegister a _ ha, rfl, rfl, rfl, rfl, rfl, _, rfl, rfl⟩
  | multiply a b _ ha hb => exact ⟨_, .multiply a b _ ha hb, sameEffect_of_out_eq rfl rfl⟩
  | add a b _ ha hb => exact ⟨_, .add a b _ ha hb, sameEffect_of_out_eq rfl rfl⟩
  | push a _ ha hv => exact ⟨_, .push a _ ha hv, sameEffect_of_out_eq rfl rfl⟩
  | pop a _ ha hv => exact ⟨_, .pop a _ ha hv, sameEffect_of_out_eq rfl rfl⟩
  | call a _ ha hv => exact ⟨_, .call a _ ha hv, sameEffect_of_out_eq rfl rfl⟩
  | ret _ hv => exact ⟨_, .ret _ hv, sameEffect_of_out_eq rfl rfl⟩

theorem Raises.congr (h : Raises i s e) (o : List Byte) (c : BitVec 3) (f : Ptr) :
    Raises i { s with out := o, faultCode := c, faultInfo := f } e := by
  cases h with
  | register _ _ c' hc => exact .register i _ c' hc
  | push a _ ha hv => exact .push a { s with out := o, faultCode := c, faultInfo := f } ha hv
  | call a _ ha hv => exact .call a { s with out := o, faultCode := c, faultInfo := f } ha hv
  | pop a _ ha hv => exact .pop a { s with out := o, faultCode := c, faultInfo := f } ha hv
  | ret _ hv => exact .ret { s with out := o, faultCode := c, faultInfo := f } hv

theorem sameEffect_raise (s : State) (e : ErrorKind) :
    SameEffect s (s.raise e) { s with out := o, faultCode := c, faultInfo := f }
      ({ s with out := o, faultCode := c, faultInfo := f }.raise e) :=
  ⟨rfl, rfl, rfl, rfl, rfl, [], by simp, by simp⟩

end

/-- The end of a step reads `pc` alone (R70). -/
theorem SameEffect.finish {s' u' : State} (h : SameEffect s u s' u') (o : Opcode) :
    SameEffect s (finish o u) s' (finish o u') := by
  obtain ⟨hx, hpc, hsp, hmem, hrun, hout⟩ := h
  unfold Machine.finish
  split
  · exact ⟨hx, congrArg (fun p : Ptr => BitVec.ofNat 9 (p.toNat + o.row.pcDelta)) hpc, hsp, hmem, hrun, hout⟩
  · exact ⟨hx, hpc, hsp, hmem, rfl, hout⟩

theorem exec_sameEffect (h : exec i s = .next t) (o : List Byte) (c : BitVec 3) (f : Ptr) :
    ∃ t', exec i { s with out := o, faultCode := c, faultInfo := f } = .next t' ∧
      SameEffect s t { s with out := o, faultCode := c, faultInfo := f } t' := by
  rcases exec_cases h with ⟨u, hu, rfl⟩ | ⟨e, he, rfl⟩
  · obtain ⟨u', hu', heffect⟩ := hu.sameEffect o c f
    exact ⟨_, exec_of_handled hu', heffect.finish _⟩
  · exact ⟨_, exec_of_raises (he.congr o c f), sameEffect_raise s e⟩

/-- Settles O33: the fetch reads `pc` and memory alone, and each instruction and each error has the same effect. -/
theorem outputAndFaultRecordAreNeverRead : Obligations.OutputAndFaultRecordAreNeverRead := by
  intro s t o c f hr h
  have hfetch : fetchInstr { s with out := o, faultCode := c, faultInfo := f } = fetchInstr s := rfl
  cases hi : fetchInstr s with
  | error e =>
    rw [step_of_fetch_error hr hi] at h
    cases h
    exact ⟨_, step_of_fetch_error hr (hfetch.trans hi), sameEffect_raise s e⟩
  | ok i =>
    rw [step_of_fetch_ok hr hi] at h
    obtain ⟨t', hx, heffect⟩ := exec_sameEffect h o c f
    refine ⟨t', ?_, heffect⟩
    rw [← hx]
    exact step_of_fetch_ok hr (hfetch.trans hi)

end Sys2Proof.Machine
end

