-- ==== Sys2Proof/Proofs/StepRuns.lean ====
section
/-! A step as such and runs of steps: every step answers a state (R75), a step executes the decoded instruction and so
does one of a placed word (R70, R164), HALTED and FAULTED are for good (R19, R77); and reset and the canonical form of
memory as their statements put them. -/

namespace Sys2Proof.Machine

variable {i : Instr} {s t u : State} {op a b : Byte} {j k : Nat}

/-! ### The step -/

theorem exec_answers (i : Instr) (s : State) : ∃ t, exec i s = .next t := by
  rcases handled_or_raises i s with ⟨u, hu⟩ | ⟨e, he⟩
  · exact ⟨_, exec_of_handled hu⟩
  · exact ⟨_, exec_of_raises he⟩

theorem step_answers (s : State) : ∃ t, step s = .next t := by
  by_cases hr : s.run = .running
  · cases hf : fetchInstr s with
    | error e => exact ⟨_, step_of_fetch_error hr hf⟩
    | ok i => exact step_of_fetch_ok hr hf ▸ exec_answers i s
  · exact ⟨s, step_of_not_running hr⟩

/-- Settles O6: an instruction is handled or raises; a step executes one, raises in the fetch or the look-up, or is
one of a terminal state. -/
theorem everyStepAnswersANextState : Obligations.EveryStepAnswersANextState :=
  ⟨step_answers, exec_answers⟩

/-- Settles O8: the fetch reads the three bytes, the look-up decodes them, and the step is their instruction's. -/
theorem stepRunsTheDecodedInstruction : Obligations.StepRunsTheDecodedInstruction :=
  fun _ _ hr hpc hd => step_of_fetch_ok hr (fetchInstr_of_ok hpc hd)

/-! ### A placed word -/

theorem decode_of_decodeTableWord {nbits w : Nat} (h : decodeTableWord nbits w = some i) :
    decode (wordBytes nbits w).1 (wordBytes nbits w).2.1 (wordBytes nbits w).2.2 = .ok i := by
  unfold decodeTableWord at h
  split at h
  next hd => rw [hd, Option.some.inj h]
  · cases h

theorem readyToFetch_pc_le (s : State) : s.readyToFetch.pc.toNat ≤ 253 := by
  simp only [State.readyToFetch]
  split
  · assumption
  · decide

/-- Three bytes placed at `pc` are the ones fetched there (R30, R71). -/
theorem fetchInstr_placeWindow (hpc : s.pc.toNat ≤ 253) (hd : decode op a b = .ok i) :
    fetchInstr (s.placeWindow op a b) = .ok i := by
  have h0 : (s.placeWindow op a b).mem.read s.pc.toNat = op := by
    simp only [State.placeWindow]
    rw [read_write_of_ne (by omega), read_write_of_ne (by omega), read_write_self]
  have h1 : (s.placeWindow op a b).mem.read (s.pc.toNat + 1) = a := by
    simp only [State.placeWindow]
    rw [read_write_of_ne (by omega), read_write_self]
  have h2 : (s.placeWindow op a b).mem.read (s.pc.toNat + 2) = b := read_write_self _ _ _
  refine fetchInstr_of_ok (s := s.placeWindow op a b) hpc ?_
  simp only [show (s.placeWindow op a b).pc = s.pc from rfl, h0, h1, h2, hd]

/-- Settles O11: the state is made one that fetches, and it fetches the bytes placed. -/
theorem placedWordRunsNext : Obligations.PlacedWordRunsNext :=
  fun s _ _ _ h =>
    step_of_fetch_ok rfl (fetchInstr_placeWindow (readyToFetch_pc_le s) (decode_of_decodeTableWord h))

/-! ### Terminal states -/

theorem run_of_not_running (h : s.run ≠ .running) (k : Nat) : Host.Core.run core k s = .next s := by
  induction k with
  | zero => rfl
  | succ k ih => rw [run_succ_of_next k (step_of_not_running h), ih]

/-- Settles O10: a step of a terminal state answers that state, and so does a run of any length. -/
theorem terminalStatesNeverChange : Obligations.TerminalStatesNeverChange :=
  fun _ k h => run_of_not_running h k

/-- A run that is in a terminal state after `j` steps is in it after any later step (R19). -/
theorem run_eq_of_terminal (hj : Host.Core.run core j s = .next t) (ht : t.run ≠ .running) (hjk : j ≤ k)
    (hk : Host.Core.run core k s = .next u) : u = t := by
  obtain ⟨d, rfl⟩ := Nat.exists_eq_add_of_le hjk
  rw [run_add_of_next d hj, run_of_not_running ht] at hk
  exact (Host.Outcome.next.inj hk).symm

/-- Settles O41: of the halted and a failed state of one run the earlier would stay, so the later would be both. -/
theorem haltedRunNeverFails : Obligations.HaltedRunNeverFails := by
  intro s t k hk hfinal j u hj hfailed
  unfold State.Final at hfinal
  unfold State.Failed at hfailed
  have heq : u = t := by
    rcases Nat.le_total k j with hle | hle
    · exact run_eq_of_terminal hk (by simp [hfinal]) hle hj
    · exact (run_eq_of_terminal hj (by simp [hfailed]) hle hk).symm
  rw [heq, hfinal] at hfailed
  cases hfailed

/-! ### Reset and memory -/

/-- Settles O2: the assertion of reset does not read the state. -/
theorem assertedResetLeavesNoTrace : Obligations.AssertedResetLeavesNoTrace :=
  assertReset_eq

/-- Settles O35: a write keeps the addresses rising and lists no cell that reads as an unlisted one; two memories of
that form differ at a cell where they first differ as lists. -/
theorem canonicalMemoriesAreDeterminedByTheirReads : Obligations.CanonicalMemoriesAreDeterminedByTheirReads :=
  ⟨fun _ _ v hm hk => wf_write hk v hm, fun _ _ => eq_of_read_eq_from⟩

end Sys2Proof.Machine
end

