-- ==== Sys2Proof/Proofs/StackSequences.lean ====
section
/-! What follows a push: the very next fetch (R41, R42), a POP or a RETURN (R114, R124); and a POP followed by the PUSH
of the same register (R114). -/

namespace Sys2Proof.Machine

variable {s t : State} {a b v : Byte}

/-! ### The stack pointer after a push or a pop -/

theorem toNat_sp_sub_one (hhi : s.sp.toNat ≤ 256) : (BitVec.ofNat 9 (s.sp.toNat - 1)).toNat = s.sp.toNat - 1 := by
  rw [BitVec.toNat_ofNat]
  exact Nat.mod_eq_of_lt (by omega)

theorem toNat_sp_add_one (hsp : s.sp.toNat ≤ 255) : (BitVec.ofNat 9 (s.sp.toNat + 1)).toNat = s.sp.toNat + 1 := by
  rw [BitVec.toNat_ofNat]
  exact Nat.mod_eq_of_lt (by omega)

/-- Down and up again is where `sp` was (R110). -/
theorem sp_sub_one_add_one (hlo : 1 ≤ s.sp.toNat) : BitVec.ofNat 9 (s.sp.toNat - 1 + 1) = s.sp := by
  rw [Nat.sub_add_cancel hlo, BitVec.ofNat_toNat, BitVec.setWidth_eq]

/-! ### The state after a PUSH -/

/-- The state in which a PUSH of the byte `v` that completes leaves the machine (R111). -/
def State.afterPush (v : Byte) (s : State) : State :=
  { s with
    sp := BitVec.ofNat 9 (s.sp.toNat - 1), pc := BitVec.ofNat 9 (s.pc.toNat + 2)
    mem := s.mem.write (s.sp.toNat - 1) v }

theorem step_push (hr : s.run = .running) (hpc : s.pc.toNat ≤ 253) (hop : s.mem.read s.pc.toNat = 0x45)
    (hra : s.mem.read (s.pc.toNat + 1) = a) (ha : a.toNat < 8) (hlo : 1 ≤ s.sp.toNat) (hhi : s.sp.toNat ≤ 256) :
    step s = .next (s.afterPush s.x[a.toNat]) := by
  rw [step_of_code (o := .push) hr hpc hop, hra, Opcode.assemble, exec_push ha hlo hhi]
  rfl

theorem afterPush_pc_toNat (hpc : s.pc.toNat ≤ 253) : (s.afterPush v).pc.toNat = s.pc.toNat + 2 :=
  pcPlus_toNat s 2 (by omega)

theorem afterPush_sp_toNat (hhi : s.sp.toNat ≤ 256) : (s.afterPush v).sp.toNat = s.sp.toNat - 1 :=
  toNat_sp_sub_one hhi

/-- The pushed byte is on top of the stack (R110). -/
theorem afterPush_top (hhi : s.sp.toNat ≤ 256) : (s.afterPush v).mem.read (s.afterPush v).sp.toNat = v := by
  rw [afterPush_sp_toNat hhi]
  exact read_write_self _ _ _

theorem afterPush_read_of_ne {k : Nat} (hk : k ≠ s.sp.toNat - 1) : (s.afterPush v).mem.read k = s.mem.read k :=
  read_write_of_ne hk _ _

/-! ### The very next fetch -/

/-- A step that ends RUNNING at `target` with `v` pushed leaves the cells `cell` and is followed by their fetch
(R41, R42). -/
theorem next_fetch_of_push {target : Nat} {cell : Nat → Byte} (hstep : step s = .next t) (hr : t.run = .running)
    (hsp : t.sp.toNat = s.sp.toNat - 1) (hpc : t.pc.toNat = target) (hmem : t.mem = s.mem.write (s.sp.toNat - 1) v)
    (hcell : ∀ k, cell k = if k = s.sp.toNat - 1 then v else s.mem.read k) :
    ∃ u, step s = .next u ∧ u.run = .running ∧ u.sp.toNat = s.sp.toNat - 1 ∧ u.pc.toNat = target ∧
      (∀ k, u.mem.read k = cell k) ∧
      (target ≤ 253 → fetch u = .ok (cell target, cell (target + 1), cell (target + 2))) := by
  have hread (k : Nat) : t.mem.read k = cell k := by rw [hmem, read_write, hcell]
  refine ⟨t, hstep, hr, hsp, hpc, hread, fun htarget => ?_⟩
  rw [← hpc] at htarget ⊢
  rw [fetch_of_le htarget, hread, hread, hread]

/-- Settles O36: the step executes the bytes that memory held before it, and what it leaves is the one write of the
pushed byte, wherever that lies. -/
theorem pushedByteIsFetchedByTheNextStep : Obligations.PushedByteIsFetchedByTheNextStep := by
  intro s a ha hr hpc hra hlo hhi target pushed cell hop
  rcases List.mem_pair.mp hop with hop | hop
  · have hne : s.mem.read s.pc.toNat ≠ 0x50 := by rw [hop]; decide
    have htarget : target = s.pc.toNat + 2 := if_neg fun h => hne h.1
    have hpushed : pushed = s.x[a.toNat] := if_neg hne
    exact next_fetch_of_push (step_push hr hpc hop hra ha hlo hhi) hr (afterPush_sp_toNat hhi)
      ((afterPush_pc_toNat hpc).trans htarget.symm) (congrArg (s.mem.write _) hpushed.symm) fun _ => rfl
  · have htarget : target = if a.toNat = 2 then s.pc.toNat + 2 else s.x[a.toNat].toNat := by
      simp only [target, hop, true_and, ne_eq, ite_not]
    have hpushed : pushed = s.returnAddress := if_pos hop
    have hlt : target < 512 := by rw [htarget]; split <;> omega
    refine next_fetch_of_push (step_call hr hpc hop hra ha hlo hhi) hr (toNat_sp_sub_one hhi) ?_
      (congrArg (s.mem.write _) hpushed.symm) fun _ => rfl
    rw [← htarget, BitVec.toNat_ofNat]
    exact Nat.mod_eq_of_lt hlt

/-! ### A push, then a pop -/

/-- POP in a state that has the byte `v` on top of its stack. -/
theorem step_pop (hr : s.run = .running) (hpc : s.pc.toNat ≤ 253) (hop : s.mem.read s.pc.toNat = 0x46)
    (hra : s.mem.read (s.pc.toNat + 1) = a) (ha : a.toNat < 8) (hsp : s.sp.toNat ≤ 255)
    (htop : s.mem.read s.sp.toNat = v) :
    step s = .next { s with
      x := s.x.set a.toNat v ha, sp := BitVec.ofNat 9 (s.sp.toNat + 1), pc := BitVec.ofNat 9 (s.pc.toNat + 2) } := by
  rw [step_of_code (o := .pop) hr hpc hop, hra, Opcode.assemble, exec_pop ha hsp, htop]

/-- Settles O48: the pushed cell is neither byte of the POP, so that is still there when it is fetched, and it pops
the byte pushed. -/
theorem pushThenPopCopiesARegister : Obligations.PushThenPopCopiesARegister := by
  intro s a b ha hb hr hpc hlo hhi hbytes hop2 hop3
  have hcode : s.mem.Holds s.pc.toNat [0x45, a, 0x46, b] := hbytes
  have hpc2 : (s.afterPush s.x[a.toNat]).pc.toNat = s.pc.toNat + 2 := afterPush_pc_toNat (by omega)
  have hsp1 : (s.afterPush s.x[a.toNat]).sp.toNat = s.sp.toNat - 1 := afterPush_sp_toNat hhi
  have hpush := step_push hr (by omega) (hcode.read_eq (k := 0) rfl) (hcode.read_eq (k := 1) rfl) ha hlo hhi
  have hpop := step_pop (s := s.afterPush s.x[a.toNat]) hr (by rw [hpc2]; omega)
    (by rw [hpc2, afterPush_read_of_ne hop2.symm]; exact hcode.read_eq (k := 2) rfl)
    (by rw [hpc2, afterPush_read_of_ne hop3.symm]; exact hcode.read_eq (k := 3) rfl)
    hb (by rw [hsp1]; omega) (afterPush_top hhi)
  rw [hpc2, hsp1, sp_sub_one_add_one hlo] at hpop
  exact ⟨_, run_two_of_next hpush hpop, rfl, read_write_self _ _ _, fun k hk => afterPush_read_of_ne hk⟩

/-- Settles O51: the pushed cell is not the RETURN, so that is still there when it is fetched, and it pops the byte
pushed. -/
theorem pushThenReturnIsAJump : Obligations.PushThenReturnIsAJump := by
  intro s a ha hr hpc hop hra hret hlo hhi houtside
  have hpc2 : (s.afterPush s.x[a.toNat]).pc.toNat = s.pc.toNat + 2 := afterPush_pc_toNat (by omega)
  have hsp1 : (s.afterPush s.x[a.toNat]).sp.toNat = s.sp.toNat - 1 := afterPush_sp_toNat hhi
  have hpush := step_push hr (by omega) hop hra ha hlo hhi
  have hreturn := step_ret (s := s.afterPush s.x[a.toNat]) hr (by rw [hpc2]; omega)
    (by rw [hpc2, afterPush_read_of_ne houtside.symm, hret]) (by rw [hsp1]; omega) (afterPush_top hhi)
  rw [hsp1, sp_sub_one_add_one hlo] at hreturn
  exact ⟨_, run_two_of_next hpush hreturn, rfl, read_write_self _ _ _, fun k hk => afterPush_read_of_ne hk⟩

/-! ### A pop, then a push -/

/-- Settles O49: the PUSH writes the popped byte back to the cell it came from, which in a canonical memory changes
nothing. -/
theorem popThenPushLoadsTheTopOfTheStack : Obligations.PopThenPushLoadsTheTopOfTheStack := by
  intro s a ha hinv hr hpc hsp hbytes
  have hcode : s.mem.Holds s.pc.toNat [0x46, a, 0x45, a] := hbytes
  have hpc2 : (BitVec.ofNat 9 (s.pc.toNat + 2)).toNat = s.pc.toNat + 2 := pcPlus_toNat s 2 (by omega)
  have hsp1 := toNat_sp_add_one hsp
  have hpop := step_pop hr (by omega) (hcode.read_eq (k := 0) rfl) (hcode.read_eq (k := 1) rfl) ha hsp rfl
  have hpush := step_push
    (s := { s with
      x := s.x.set a.toNat (s.mem.read s.sp.toNat) ha, sp := BitVec.ofNat 9 (s.sp.toNat + 1)
      pc := BitVec.ofNat 9 (s.pc.toNat + 2) })
    hr (by rw [hpc2]; omega) (by rw [hpc2]; exact hcode.read_eq (k := 2) rfl)
    (by rw [hpc2]; exact hcode.read_eq (k := 3) rfl) ha (by rw [hsp1]; omega) (by rw [hsp1]; omega)
  rw [run_two_of_next hpop hpush]
  simp only [State.afterPush, hpc2, hsp1, Nat.add_sub_cancel, BitVec.ofNat_toNat, BitVec.setWidth_eq,
    Vector.getElem_set_self, write_read_self (show s.sp.toNat < 256 by omega) hinv.mem_wf]

end Sys2Proof.Machine
end
